-- ==== Sys2Proof/Word.lean ====
section
/-! DEFINITION. The word types of the bit-range extractor (BRX) and the command the port carries. -/

namespace Sys2Proof

/-- A byte, the operand of `BM_PUSHB` (R47). -/
abbrev Byte := BitVec 8

/-- A store word or a Block: `W = 64` bits (R5, R6). -/
abbrev Word := BitVec 64

/-- `ALL1` of R6. -/
def allOnes : Word := 0xFFFFFFFFFFFFFFFF#64

/-- One command: the 32-bit command word and its 64-bit argument (R45). -/
structure Command where
  cmd : BitVec 32
  arg : Word
  deriving DecidableEq, Repr

end Sys2Proof
end

