-- ==== Sys2Proof/Config.lean ====
section
/-! DEFINITION. The open parameters of an instance of the block (R5). -/

namespace Sys2Proof

/-- The two parameters the spec leaves open (R5, D6, D13): the store's capacity in words and the number of
reader contexts. They are fixed for one machine; the state carries them unchanged (log entry 1). -/
structure Config where
  /-- `CAPW`, the capacity of the store in 64-bit words. -/
  capw : Nat
  /-- `NRD`, the number of reader contexts. -/
  nrd : Nat
  deriving DecidableEq, Repr

/-- The constraints of R5: `1 <= CAPW`, `64*CAPW < 2^48`, `1 <= NRD <= 16`. -/
abbrev Config.valid (c : Config) : Prop :=
  1 ≤ c.capw ∧ 64 * c.capw < 2 ^ 48 ∧ 1 ≤ c.nrd ∧ c.nrd ≤ 16

/-- R5: "A suggested test configuration for everything else is `CAPW = 4`, `NRD = 2`."
DESIGN CHOICE (log entry 1): the configuration of `State.reset`. -/
def Config.suggested : Config := ⟨4, 2⟩

end Sys2Proof
end

