-- ==== Sys2Proof/Syntax.lean ====
section
/-! DEFINITION. The fifteen commands of the BRX command set, version 1 (R50), with their operands (R46, R47). -/

namespace Sys2Proof

/-- One constructor per row of the opcode table. Numbers the rules compare are naturals (R6), bits are bit
vectors. A field the format ignores is not an operand. -/
inductive Instr where
  /-- `BM_NEW`: begin constructing a Bitmap (R61). -/
  | bmNew
  /-- `BM_PUSHB byte`: append one byte (R62). -/
  | bmPushb (byte : Byte)
  /-- `BM_PUSHW word`: append one 64-bit word (R63). -/
  | bmPushw (word : Word)
  /-- `BM_COMMIT`: end construction (R64). -/
  | bmCommit
  /-- `BM_ZFILL nbits`: construct a Bitmap of zero bits (R65). -/
  | bmZfill (nbits : Nat)
  /-- `BM_GET index, length`: random-access range extraction (R75). -/
  | bmGet (index len : Nat)
  /-- `BM_SIZE`: the Bitmap's bit count (R76). -/
  | bmSize
  /-- `RD_INIT r`: construct a Reader in context `r` (R81). -/
  | rdInit (rid : Nat)
  /-- `RD_BITS r, n`: read the next `n` bits (R82). -/
  | rdBits (rid n : Nat)
  /-- `RD_BOOL r`: read one bit (R83). -/
  | rdBool (rid : Nat)
  /-- `RD_BYTE r`: read eight bits (R84). -/
  | rdByte (rid : Nat)
  /-- `RD_SIZE r`: the size of the Reader's Bitmap (R85). -/
  | rdSize (rid : Nat)
  /-- `RD_UNREAD r`: the number of bits not yet read (R86). -/
  | rdUnread (rid : Nat)
  /-- `RD_HASUNREAD r`: whether any bit is unread (R87). -/
  | rdHasunread (rid : Nat)
  /-- `RD_STAT r`: the Reader's position and error latch (R88). -/
  | rdStat (rid : Nat)
  deriving DecidableEq, Repr

end Sys2Proof
end

