-- ==== Sys2Proof/WellFormed.lean ====
section
/-! DEFINITION. Which instructions have an encoding: each natural operand fits its field (R45, R47). -/

namespace Sys2Proof

/-- A reader number fits the 4-bit field `rid` (R45). -/
def ridFits (rid : Nat) : Bool := decide (rid < 16)

/-- A length fits the 8-bit field `len` (R45, R47). -/
def lenFits (n : Nat) : Bool := decide (n < 256)

/-- A natural operand fits the 64-bit argument (R47). -/
def argFits (x : Nat) : Bool := decide (x < 2 ^ 64)

/-- Every operand fits the field that carries it. -/
def Instr.wellFormed : Instr → Bool
  | .bmNew => true
  | .bmPushb _ => true
  | .bmPushw _ => true
  | .bmCommit => true
  | .bmZfill nbits => argFits nbits
  | .bmGet index len => argFits index && lenFits len
  | .bmSize => true
  | .rdInit rid => ridFits rid
  | .rdBits rid n => ridFits rid && lenFits n
  | .rdBool rid => ridFits rid
  | .rdByte rid => ridFits rid
  | .rdSize rid => ridFits rid
  | .rdUnread rid => ridFits rid
  | .rdHasunread rid => ridFits rid
  | .rdStat rid => ridFits rid

end Sys2Proof
end

