-- ==== Sys2Proof/Decode.lean ====
section
/-! DEFINITION. The command word: its fields, the opcode map, a total decoder that rejects by name, and the
encoder (30_encoding.md R45, R46, R47, R50, R51). -/

namespace Sys2Proof

/-! ### Fields of the command word (R45) -/

/-- `op = cmd[31:24]`. -/
def opField (cmd : BitVec 32) : BitVec 8 := cmd.extractLsb' 24 8

/-- `rid = cmd[23:20]`. -/
def ridField (cmd : BitVec 32) : BitVec 4 := cmd.extractLsb' 20 4

/-- `zero = cmd[19:8]`. -/
def zeroField (cmd : BitVec 32) : BitVec 12 := cmd.extractLsb' 8 12

/-- `len = cmd[7:0]`. -/
def lenField (cmd : BitVec 32) : BitVec 8 := cmd.extractLsb' 0 8

/-- A command word from its four fields (R45). -/
def packCmd (op : BitVec 8) (rid : BitVec 4) (zero : BitVec 12) (len : BitVec 8) : BitVec 32 :=
  op ++ rid ++ zero ++ len

/-! ### The opcode map (R50) -/

/-- The five operand formats (R46). -/
inductive Format where
  /-- No operand. -/
  | N
  /-- `arg`. -/
  | A
  /-- `arg` and `len`. -/
  | G
  /-- `rid`. -/
  | R
  /-- `rid` and `len`. -/
  | RL
  deriving DecidableEq, Repr

/-- The formats in which `rid` is an operand; in the others it must be 0 (R46). -/
def Format.usesRid : Format → Bool
  | .N | .A | .G => false
  | .R | .RL => true

/-- The formats in which `len` is an operand; in the others it must be 0 (R46). -/
def Format.usesLen : Format → Bool
  | .N | .A | .R => false
  | .G | .RL => true

/-- The formats in which `arg` is an operand; in the others it is ignored (R46, R47). -/
def Format.usesArg : Format → Bool
  | .N | .R | .RL => false
  | .A | .G => true

/-- The fifteen opcodes of R50, by name. -/
inductive Opcode where
  | bmNew | bmPushb | bmPushw | bmCommit | bmZfill
  | bmGet | bmSize
  | rdInit | rdBits | rdBool | rdByte | rdSize | rdUnread | rdHasunread | rdStat
  deriving DecidableEq, Repr

/-- The value of `op` (R50). -/
def Opcode.code : Opcode → BitVec 8
  | .bmNew => 0x10 | .bmPushb => 0x11 | .bmPushw => 0x12 | .bmCommit => 0x13 | .bmZfill => 0x14
  | .bmGet => 0x20 | .bmSize => 0x21
  | .rdInit => 0x30 | .rdBits => 0x31 | .rdBool => 0x32 | .rdByte => 0x33
  | .rdSize => 0x34 | .rdUnread => 0x35 | .rdHasunread => 0x36 | .rdStat => 0x37

/-- The operand format of each opcode (R46, R50). -/
def Opcode.format : Opcode → Format
  | .bmNew | .bmCommit | .bmSize => .N
  | .bmPushb | .bmPushw | .bmZfill => .A
  | .bmGet => .G
  | .rdInit | .rdBool | .rdByte | .rdSize | .rdUnread | .rdHasunread | .rdStat => .R
  | .rdBits => .RL

/-- The opcodes in the order of R50. -/
def Opcode.all : List Opcode :=
  [.bmNew, .bmPushb, .bmPushw, .bmCommit, .bmZfill, .bmGet, .bmSize,
   .rdInit, .rdBits, .rdBool, .rdByte, .rdSize, .rdUnread, .rdHasunread, .rdStat]

/-- One row of R50: a word `c` selects the row when `c & mask == pattern`. -/
structure Row where
  mnemonic : String
  opcode : Opcode
  pattern : BitVec 32
  mask : BitVec 32
  deriving DecidableEq, Repr

/-- The `match` and `mask` columns of R50, copied from the table; the decoder does not use them, and the
statement `DecodeSelectsTableRow` holds the two together. -/
def opcodeTable : List Row :=
  [⟨"BM_NEW", .bmNew, 0x10000000, 0xFFFFFFFF⟩,
   ⟨"BM_PUSHB", .bmPushb, 0x11000000, 0xFFFFFFFF⟩,
   ⟨"BM_PUSHW", .bmPushw, 0x12000000, 0xFFFFFFFF⟩,
   ⟨"BM_COMMIT", .bmCommit, 0x13000000, 0xFFFFFFFF⟩,
   ⟨"BM_ZFILL", .bmZfill, 0x14000000, 0xFFFFFFFF⟩,
   ⟨"BM_GET", .bmGet, 0x20000000, 0xFFFFFF00⟩,
   ⟨"BM_SIZE", .bmSize, 0x21000000, 0xFFFFFFFF⟩,
   ⟨"RD_INIT", .rdInit, 0x30000000, 0xFF0FFFFF⟩,
   ⟨"RD_BITS", .rdBits, 0x31000000, 0xFF0FFF00⟩,
   ⟨"RD_BOOL", .rdBool, 0x32000000, 0xFF0FFFFF⟩,
   ⟨"RD_BYTE", .rdByte, 0x33000000, 0xFF0FFFFF⟩,
   ⟨"RD_SIZE", .rdSize, 0x34000000, 0xFF0FFFFF⟩,
   ⟨"RD_UNREAD", .rdUnread, 0x35000000, 0xFF0FFFFF⟩,
   ⟨"RD_HASUNREAD", .rdHasunread, 0x36000000, 0xFF0FFFFF⟩,
   ⟨"RD_STAT", .rdStat, 0x37000000, 0xFF0FFFFF⟩]

/-! ### Decoding (R51, R56 step 1, R141 step 1) -/

/-- Why a command word is illegal, the four classes of R51. -/
inductive Illegal where
  /-- (a) `op` is none of the fifteen. -/
  | opcode
  /-- (b) a listed `op` with `zero != 0`. -/
  | zero
  /-- (c) a listed `op` of format N, A or G with `rid != 0`. -/
  | rid
  /-- (d) a listed `op` of format N, A or R with `len != 0`. -/
  | len
  deriving DecidableEq, Repr

/-- The opcode with a given code, if it is one of the fifteen. -/
def Opcode.ofCode (code : BitVec 8) : Option Opcode :=
  Opcode.all.find? fun o => o.code == code

/-- The operands of a legal command, assembled from its fields: nothing is sign-extended, scaled or shifted (R47). -/
def assemble (o : Opcode) (c : Command) : Instr :=
  match o with
  | .bmNew => .bmNew
  | .bmPushb => .bmPushb (c.arg.extractLsb' 0 8)
  | .bmPushw => .bmPushw c.arg
  | .bmCommit => .bmCommit
  | .bmZfill => .bmZfill c.arg.toNat
  | .bmGet => .bmGet c.arg.toNat (lenField c.cmd).toNat
  | .bmSize => .bmSize
  | .rdInit => .rdInit (ridField c.cmd).toNat
  | .rdBits => .rdBits (ridField c.cmd).toNat (lenField c.cmd).toNat
  | .rdBool => .rdBool (ridField c.cmd).toNat
  | .rdByte => .rdByte (ridField c.cmd).toNat
  | .rdSize => .rdSize (ridField c.cmd).toNat
  | .rdUnread => .rdUnread (ridField c.cmd).toNat
  | .rdHasunread => .rdHasunread (ridField c.cmd).toNat
  | .rdStat => .rdStat (ridField c.cmd).toNat

/-- The decoder, total on all command words (R51); the checks stand in the order of R141. -/
def decode (c : Command) : Except Illegal Instr :=
  match Opcode.ofCode (opField c.cmd) with
  | none => .error .opcode
  | some o =>
    if zeroField c.cmd ≠ 0 then .error .zero
    else if o.format.usesRid = false ∧ ridField c.cmd ≠ 0 then .error .rid
    else if o.format.usesLen = false ∧ lenField c.cmd ≠ 0 then .error .len
    else .ok (assemble o c)

/-! ### Encoding -/

/-- The opcode of an instruction. -/
def Instr.opcode : Instr → Opcode
  | .bmNew => .bmNew
  | .bmPushb _ => .bmPushb
  | .bmPushw _ => .bmPushw
  | .bmCommit => .bmCommit
  | .bmZfill _ => .bmZfill
  | .bmGet _ _ => .bmGet
  | .bmSize => .bmSize
  | .rdInit _ => .rdInit
  | .rdBits _ _ => .rdBits
  | .rdBool _ => .rdBool
  | .rdByte _ => .rdByte
  | .rdSize _ => .rdSize
  | .rdUnread _ => .rdUnread
  | .rdHasunread _ => .rdHasunread
  | .rdStat _ => .rdStat

/-- The reader number an instruction names, if its format has one. -/
def Instr.reader? : Instr → Option Nat
  | .bmNew => none
  | .bmPushb _ => none
  | .bmPushw _ => none
  | .bmCommit => none
  | .bmZfill _ => none
  | .bmGet _ _ => none
  | .bmSize => none
  | .rdInit rid => some rid
  | .rdBits rid _ => some rid
  | .rdBool rid => some rid
  | .rdByte rid => some rid
  | .rdSize rid => some rid
  | .rdUnread rid => some rid
  | .rdHasunread rid => some rid
  | .rdStat rid => some rid

/-- The value of the field `len` of an instruction: 0 where the format does not use it (R46). -/
def Instr.lenOperand : Instr → Nat
  | .bmGet _ len => len
  | .rdBits _ n => n
  | .bmNew => 0
  | .bmPushb _ => 0
  | .bmPushw _ => 0
  | .bmCommit => 0
  | .bmZfill _ => 0
  | .bmSize => 0
  | .rdInit _ => 0
  | .rdBool _ => 0
  | .rdByte _ => 0
  | .rdSize _ => 0
  | .rdUnread _ => 0
  | .rdHasunread _ => 0
  | .rdStat _ => 0

/-- The argument of an instruction; "Where `arg` is ignored it is written as zero" (R53). -/
def Instr.argOperand : Instr → Word
  | .bmPushb byte => byte.setWidth 64
  | .bmPushw word => word
  | .bmZfill nbits => BitVec.ofNat 64 nbits
  | .bmGet index _ => BitVec.ofNat 64 index
  | .bmNew => 0
  | .bmCommit => 0
  | .bmSize => 0
  | .rdInit _ => 0
  | .rdBits _ _ => 0
  | .rdBool _ => 0
  | .rdByte _ => 0
  | .rdSize _ => 0
  | .rdUnread _ => 0
  | .rdHasunread _ => 0
  | .rdStat _ => 0

/-- The command of a well-formed instruction (R45, R46, R50). -/
def encode (i : Instr) : Command where
  cmd := packCmd i.opcode.code (BitVec.ofNat 4 (i.reader?.getD 0)) 0 (BitVec.ofNat 8 i.lenOperand)
  arg := i.argOperand

/-! ### The opcode table's numbering of bits -/

/-- The command whose bits are `w`, numbered from the least significant bit of the command word, the argument's
bits counting on from bit 32; every bit at or above `nbits` is 0. -/
def commandOfBits (nbits w : Nat) : Command where
  cmd := BitVec.ofNat 32 (w % 2 ^ nbits)
  arg := BitVec.ofNat 64 (w % 2 ^ nbits / 2 ^ 32)

/-- The instruction the decoder reads from bits so numbered, none where it refuses. -/
def decodeTableWord (nbits w : Nat) : Option Instr :=
  match decode (commandOfBits nbits w) with
  | .ok i => some i
  | .error _ => none

end Sys2Proof
end

