-- ==== Sys2Proof/Machine/State.lean ====
section
/-! DEFINITION. The state of the block as plain data, its reset values, and the reasons a step can stop
(10_state.md R12 to R22; 30_encoding.md R48, R55; 60_exceptions.md R100). -/

namespace Sys2Proof.Machine

/-- `mode` (R12): a built, immutable Bitmap, or a construction in progress. -/
inductive Mode where
  | built
  | loading
  deriving DecidableEq, Repr

/-- The three extraction errors (R71, R100). -/
inductive ErrKind where
  /-- `IndexOutOfRange`. -/
  | indexOutOfRange
  /-- `LengthOutOfRange`. -/
  | lengthOutOfRange
  /-- `LengthExceedsRange`. -/
  | lengthExceedsRange
  deriving DecidableEq, Repr

/-- What a present error latch holds: the error and the length operand of the read that failed (R18). -/
structure Latched where
  kind : ErrKind
  n : Nat
  deriving DecidableEq, Repr

/-- One reader context `rd[r]` (R16, R17, R18): `err = none` is Active, `some` is Errored (R80). -/
structure Reader where
  pos : Nat
  err : Option Latched
  deriving DecidableEq, Repr

/-- A freshly constructed Reader: "initializes position to 0, error state to absent" (R22, R81). -/
def Reader.fresh : Reader := ⟨0, none⟩

/-- The nine status values of a response (R100); no other is ever produced. -/
inductive Status where
  | ok
  | indexOutOfRange
  | lengthOutOfRange
  | lengthExceedsRange
  | illegalCmd
  | badReader
  | badMode
  | misalignedPush
  | capacity
  deriving DecidableEq, Repr

/-- One response (R48). -/
structure Response where
  status : Status
  data : Word
  deriving DecidableEq, Repr

/-- What the host may do at the port (R55, R120): offer a command, assert reset, take a response. -/
inductive HostEvent where
  /-- A command accepted on the command channel. -/
  | command (c : Command)
  /-- `rst` asserted and released (R120, R121). -/
  | reset
  /-- `rsp_ready` while a response is offered: the oldest response is delivered (R55). -/
  | takeResponse
  deriving DecidableEq, Repr

/-- The bit store by bytes: byte address `j` holds bitmap bits `8j .. 8j+7` (R31). Its canonical form is
`Memory.wf`: addresses strictly rising, no entry equal to 0, which is what an unlisted address reads as (R22). -/
abbrev Memory := List Host.Cell

/-- The whole state (10_state.md): `mode`, `size`, the store, the reader contexts; the instance's parameters
`CAPW` (`capw`) and `NRD` (the number of contexts in `rd`), which nothing writes (log entry 1); the host's
events still to come, which are the model's own field (log entry 4); the undelivered responses, oldest first. -/
structure State where
  mode : Mode
  size : Nat
  mem : Memory
  rd : List Reader
  capw : Nat
  inbox : List HostEvent
  rsps : List Response
  deriving DecidableEq, Repr

/-- `NRD`: the number of reader contexts (R5, R16). -/
abbrev State.nrd (s : State) : Nat := s.rd.length

/-- `CAPBITS = 64*CAPW` (R5). -/
abbrev State.capBits (s : State) : Nat := 64 * s.capw

/-- The configuration of the instance a state belongs to. -/
def State.config (s : State) : Config := ⟨s.capw, s.nrd⟩

/-- The state right after reset of an instance with configuration `c` (R22, R120), nothing offered by the host. -/
def State.resetWith (c : Config) : State where
  mode := .built
  size := 0
  mem := []
  rd := List.replicate c.nrd Reader.fresh
  capw := c.capw
  inbox := []
  rsps := []

/-- The state right after reset of the suggested configuration (R5, R22; log entry 1). -/
def State.reset : State := State.resetWith Config.suggested

/-- Why the machine stops with a fault: never. "every command terminates and yields a response, so the block has
no stuck state and no hang" (R130), so no step raises a fault and the type has no constructor. -/
inductive Fault where
  deriving DecidableEq, Repr

/-- Why a step is refused by the model (not the block's own refusal statuses, which are responses). -/
inductive Refusal where
  /-- Raised by `exec`'s arm of an instruction that has no meaning; safe. Every instruction has one, so no arm
  raises it. -/
  | notModelled (mnemonic : String)
  deriving DecidableEq, Repr

end Sys2Proof.Machine
end

