-- ==== Sys2Proof/Machine/Flags.lean ====
section
/-! DEFINITION. Codes and condition values: the status codes, the mode bit, the error code, the unread count and
flag, and the packed reader status (60_exceptions.md R100; 10_state.md R12; 42_reader.md R86, R87, R88). -/

namespace Sys2Proof.Machine

/-- The 8-bit status on the port (R100). -/
def Status.code : Status → BitVec 8
  | .ok => 0x00
  | .indexOutOfRange => 0x01
  | .lengthOutOfRange => 0x02
  | .lengthExceedsRange => 0x03
  | .illegalCmd => 0x10
  | .badReader => 0x11
  | .badMode => 0x12
  | .misalignedPush => 0x13
  | .capacity => 0x14

/-- The refusal class of R100. -/
def Status.isRefusal : Status → Bool
  | .ok | .indexOutOfRange | .lengthOutOfRange | .lengthExceedsRange => false
  | .illegalCmd | .badReader | .badMode | .misalignedPush | .capacity => true

/-- The status an extraction error is reported with (R75, R82, R100). -/
def ErrKind.status : ErrKind → Status
  | .indexOutOfRange => .indexOutOfRange
  | .lengthOutOfRange => .lengthOutOfRange
  | .lengthExceedsRange => .lengthExceedsRange

/-- The encoding of the mode flag (R12): `BUILT` 0, `LOADING` 1. -/
def Mode.bit : Mode → BitVec 1
  | .built => 0
  | .loading => 1

/-- `size - rd[r].pos` (R86). -/
def unreadCount (size : Nat) (rd : Reader) : Nat := size - rd.pos

/-- `1 if rd[r].pos != size else 0` (R87). -/
def unreadFlag (size : Nat) (rd : Reader) : Word := if rd.pos ≠ size then 1 else 0

/-- The low byte of `RD_STAT`: the latched code, 0 while Active (R88). -/
def errCode : Option Latched → BitVec 8
  | none => 0
  | some e => e.kind.status.code

/-- The second byte of `RD_STAT`: the `n` of the read that failed, 0 while Active (R88). -/
def errLen : Option Latched → BitVec 8
  | none => 0
  | some e => BitVec.ofNat 8 e.n

/-- `{ zext_48(rd[r].pos), k[7:0], c[7:0] }` (R88). -/
def statWord (rd : Reader) : Word :=
  BitVec.ofNat 48 rd.pos ++ errLen rd.err ++ errCode rd.err

end Sys2Proof.Machine
end

