-- ==== Sys2Proof/Machine/Ops.lean ====
section
/-! DEFINITION. The named operations over the store, the reader contexts and the port: memory reads and writes,
responses, the checks of R56, the error latch (R104) and the construction of new Readers (R105), reset. -/

namespace Sys2Proof.Machine

/-! ### The bit store, byte by byte -/

/-- The canonical form: addresses strictly rising, no entry equal to what an unlisted address reads as. -/
def Memory.wf : Memory → Bool
  | [] => true
  | [(_, v)] => v != 0
  | (a, v) :: (b, w) :: m => v != 0 && decide (a < b) && Memory.wf ((b, w) :: m)

/-- The byte at an address; an unlisted address reads as 0, the reset contents (R22). -/
def Memory.read : Memory → Nat → Byte
  | [], _ => 0
  | (b, v) :: m, a => if b = a then v else Memory.read m a

/-- The entries at addresses other than `a`. -/
def Memory.erase (m : Memory) (a : Nat) : Memory := m.filter fun c => c.1 != a

/-- An entry put before the first entry of a higher address. -/
def Memory.insert : Memory → Nat → Byte → Memory
  | [], a, v => [(a, v)]
  | (b, w) :: m, a, v => if a < b then (a, v) :: (b, w) :: m else (b, w) :: Memory.insert m a v

/-- A byte written, in canonical form: writing 0 removes the entry. -/
def Memory.write (m : Memory) (a : Nat) (v : Byte) : Memory :=
  if v = 0 then m.erase a else (m.erase a).insert a v

/-- `store[w]`: bytes `8w .. 8w+7`, "most-significant-byte-first within each word" (R31). -/
def Memory.word (m : Memory) (w : Nat) : Word :=
  m.read (8 * w) ++ m.read (8 * w + 1) ++ m.read (8 * w + 2) ++ m.read (8 * w + 3) ++
    m.read (8 * w + 4) ++ m.read (8 * w + 5) ++ m.read (8 * w + 6) ++ m.read (8 * w + 7)

/-- Byte `k` of a word, counted from its most significant byte (R31). -/
def wordByte (v : Word) (k : Nat) : Byte := v.extractLsb' (56 - 8 * k) 8

/-- The first `n` bytes of `store[w]` written from `v`. -/
def Memory.writeBytes (m : Memory) (w : Nat) (v : Word) : Nat → Memory
  | 0 => m
  | n + 1 => (m.writeBytes w v n).write (8 * w + n) (wordByte v n)

/-- `store[w] <- v`. -/
def Memory.writeWord (m : Memory) (w : Nat) (v : Word) : Memory := m.writeBytes w v 8

/-- `bit(i)`: word `i / 64` at value position `63 - (i mod 64)` (R7, R30). -/
def Memory.bit (m : Memory) (i : Nat) : Bool := (m.word (i / 64)).getLsbD (63 - i % 64)

/-! ### Responses -/

/-- `respond(status, data)` (R7): the response joins the response channel behind the earlier ones (R38, R55). -/
def respond (st : Status) (d : Word) (s : State) : State :=
  { s with rsps := s.rsps ++ [⟨st, d⟩] }

/-- `raise <Status>` (R7): the response with data 0 and no other state change. -/
def raise (st : Status) (s : State) : State := respond st 0 s

/-! ### The checks of R56 -/

/-- Step 3: `k` if the command is in its one accepted mode `m`, else `BAD_MODE`. -/
def requireMode (m : Mode) (s k : State) : State :=
  if s.mode = m then k else raise .badMode s

/-- Steps 2 and 3 of a reader command: `BAD_READER` before `BAD_MODE` (R103). -/
def requireReader (rid : Nat) (s k : State) : State :=
  if s.nrd ≤ rid then raise .badReader s else requireMode .built s k

/-! ### Bitmap construction -/

/-- The store cleared and every reader context freshly constructed, with a given mode and size: the end of one
Bitmap's life and the start of the next (R24, R61, R65). -/
def newBitmap (m : Mode) (n : Nat) (s : State) : State :=
  { s with mode := m, size := n, mem := [], rd := List.replicate s.nrd Reader.fresh }

/-- One byte appended at `size` (R62). -/
def appendByte (byte : Byte) (s : State) : State :=
  let w := s.size / 64
  let o := s.size % 64
  { s with
    mem := s.mem.writeWord w (s.mem.word w ||| (byte.setWidth 64 <<< (56 - o)))
    size := s.size + 8 }

/-- One word appended at `size` (R63). -/
def appendWord (word : Word) (s : State) : State :=
  { s with mem := s.mem.writeWord (s.size / 64) word, size := s.size + 64 }

/-! ### Reader contexts -/

/-- `rd[r]`; the commands read it only for `r < NRD`. -/
def State.reader (s : State) (r : Nat) : Reader := s.rd.getD r Reader.fresh

/-- `rd[r] <- x`. -/
def setReader (r : Nat) (x : Reader) (s : State) : State := { s with rd := s.rd.set r x }

/-- The "trap entry" (R104): a failing read of length `n` on an Active Reader latches its error; the position and
everything else stay, and the response is (code, 0). -/
def latchError (r n : Nat) (e : ErrKind) (s : State) : State :=
  raise e.status (setReader r { s.reader r with err := some ⟨e, n⟩ } s)

/-- What stands in place of a "trap return" (R105, R81): a new Reader in the context. -/
def initReader (r : Nat) (s : State) : State := setReader r Reader.fresh s

/-- A successful read of `n` bits: `pos` advances by `n` (R82). -/
def advanceReader (r n : Nat) (s : State) : State :=
  setReader r { s.reader r with pos := (s.reader r).pos + n } s

/-! ### The host's events other than commands -/

/-- Reset (R120, R121): every field at its reset value, the response channel emptied. The instance's parameters
and the host's remaining events are not the block's state to reset (log entries 1 and 4). -/
def applyReset (s : State) : State := { State.resetWith s.config with inbox := s.inbox }

/-- The oldest response is delivered; with none offered nothing happens (R55). -/
def deliver (s : State) : State := { s with rsps := s.rsps.tail }

end Sys2Proof.Machine
end

