-- ==== Sys2Proof/Machine/Operands.lean ====
section
/-! DEFINITION. The bit range as an operand: the checks of `get`, the extraction algorithm, and the bit-by-bit
value it stands for (41_bitmap_query.md R70 to R74; 00_scope.md R7). -/

namespace Sys2Proof.Machine

/-- `MemRead(i, n)` (R7): the `n`-bit number whose most significant bit is `bit(i)`. -/
def Memory.memRead (m : Memory) (i n : Nat) : Nat :=
  ((List.range n).map fun k => (m.bit (i + k)).toNat * 2 ^ (n - 1 - k)).sum

/-- The extraction algorithm (R72). -/
def extract (m : Memory) (index length : Nat) : Word :=
  let w := index / 64
  let o := index % 64
  let last := o + length - 1
  let v :=
    if last < 64 then m.word w >>> (64 - last - 1)
    else
      let ov := last - 64 + 1
      (m.word w <<< ov) ||| (m.word (w + 1) >>> (64 - ov))
  v &&& (allOnes >>> (64 - length))

/-- `get(index, length)` (R71), a function of the Bitmap alone (R70); the checks stand in the order the source
fixes, and all comparisons are on naturals (R6). -/
def get (size : Nat) (m : Memory) (index length : Nat) : Except ErrKind Word :=
  if size ≤ index then .error .indexOutOfRange
  else if length = 0 then .ok 0
  else if 64 < length then .error .lengthOutOfRange
  else if size ≤ index + length - 1 then .error .lengthExceedsRange
  else .ok (extract m index length)

/-- `get` on the Bitmap of a state. -/
def State.get (s : State) (index length : Nat) : Except ErrKind Word :=
  Sys2Proof.Machine.get s.size s.mem index length

end Sys2Proof.Machine
end

