-- ==== Sys2Proof/Machine/Construction.lean ====
section
/-! DEFINITION. The Bitmap construction commands (40_bitmap_construction.md R61 to R65). -/

namespace Sys2Proof.Machine

/-- `BM_NEW` (R61). -/
def execBmNew (s : State) : Host.Outcome State Fault Refusal :=
  .next (respond .ok 0 (newBitmap .loading 0 s))

/-- `BM_PUSHB byte` (R62). -/
def execBmPushb (byte : Byte) (s : State) : Host.Outcome State Fault Refusal :=
  .next <| requireMode .loading s <|
    if s.capBits < s.size + 8 then raise .capacity s
    else respond .ok 0 (appendByte byte s)

/-- `BM_PUSHW word` (R63): the alignment check stands before the capacity check. -/
def execBmPushw (word : Word) (s : State) : Host.Outcome State Fault Refusal :=
  .next <| requireMode .loading s <|
    if s.size % 64 ≠ 0 then raise .misalignedPush s
    else if s.capBits < s.size + 64 then raise .capacity s
    else respond .ok 0 (appendWord word s)

/-- `BM_COMMIT` (R64). -/
def execBmCommit (s : State) : Host.Outcome State Fault Refusal :=
  .next <| requireMode .loading s <| respond .ok 0 { s with mode := .built }

/-- `BM_ZFILL nbits` (R65). -/
def execBmZfill (nbits : Nat) (s : State) : Host.Outcome State Fault Refusal :=
  .next <|
    if s.capBits < nbits then raise .capacity s
    else respond .ok 0 (newBitmap .built nbits s)

end Sys2Proof.Machine
end

