-- ==== Sys2Proof/Machine/Query.lean ====
section
/-! DEFINITION. The Bitmap query commands (41_bitmap_query.md R75, R76). -/

namespace Sys2Proof.Machine

/-- `BM_GET index, length` (R75): no state changes in any case. -/
def execBmGet (index len : Nat) (s : State) : Host.Outcome State Fault Refusal :=
  .next <| requireMode .built s <|
    match s.get index len with
    | .ok block => respond .ok block s
    | .error e => raise e.status s

/-- `BM_SIZE` (R76). -/
def execBmSize (s : State) : Host.Outcome State Fault Refusal :=
  .next <| requireMode .built s <| respond .ok (BitVec.ofNat 64 s.size) s

end Sys2Proof.Machine
end

