-- ==== Sys2Proof/Machine/Reader.lean ====
section
/-! DEFINITION. The reader commands (42_reader.md R81 to R88). -/

namespace Sys2Proof.Machine

/-- `readBits(n)` on context `r` (R82): replay the latch, or evaluate `get` at the position and advance or latch. -/
def readBits (r n : Nat) (s : State) : State :=
  match (s.reader r).err with
  | some e => raise e.kind.status s
  | none =>
    match s.get (s.reader r).pos n with
    | .ok block => respond .ok block (advanceReader r n s)
    | .error e => latchError r n e s

/-- `RD_INIT r` (R81). -/
def execRdInit (rid : Nat) (s : State) : Host.Outcome State Fault Refusal :=
  .next <| requireReader rid s <| respond .ok 0 (initReader rid s)

/-- `RD_BITS r, n` (R82). -/
def execRdBits (rid n : Nat) (s : State) : Host.Outcome State Fault Refusal :=
  .next <| requireReader rid s <| readBits rid n s

/-- `RD_BOOL r` (R83): "exactly the pseudocode of rule R82 with `n = 1`". -/
def execRdBool (rid : Nat) (s : State) : Host.Outcome State Fault Refusal :=
  .next <| requireReader rid s <| readBits rid 1 s

/-- `RD_BYTE r` (R84): "exactly the pseudocode of rule R82 with `n = 8`". -/
def execRdByte (rid : Nat) (s : State) : Host.Outcome State Fault Refusal :=
  .next <| requireReader rid s <| readBits rid 8 s

/-- `RD_SIZE r` (R85): unaffected by position or error state. -/
def execRdSize (rid : Nat) (s : State) : Host.Outcome State Fault Refusal :=
  .next <| requireReader rid s <| respond .ok (BitVec.ofNat 64 s.size) s

/-- `RD_UNREAD r` (R86). -/
def execRdUnread (rid : Nat) (s : State) : Host.Outcome State Fault Refusal :=
  .next <| requireReader rid s <|
    respond .ok (BitVec.ofNat 64 (unreadCount s.size (s.reader rid))) s

/-- `RD_HASUNREAD r` (R87). -/
def execRdHasunread (rid : Nat) (s : State) : Host.Outcome State Fault Refusal :=
  .next <| requireReader rid s <| respond .ok (unreadFlag s.size (s.reader rid)) s

/-- `RD_STAT r` (R88): it reports the latch, and neither replays nor clears it. -/
def execRdStat (rid : Nat) (s : State) : Host.Outcome State Fault Refusal :=
  .next <| requireReader rid s <| respond .ok (statWord (s.reader rid)) s

end Sys2Proof.Machine
end

