-- ==== Sys2Proof/Machine/Dispatch.lean ====
section
/-! DEFINITION. The meaning of each instruction: one arm per constructor (R141 step 4). -/

namespace Sys2Proof.Machine

def exec (i : Instr) (s : State) : Host.Outcome State Fault Refusal :=
  match i with
  | .bmNew => Sys2Proof.Machine.execBmNew s
  | .bmPushb byte => Sys2Proof.Machine.execBmPushb byte s
  | .bmPushw word => Sys2Proof.Machine.execBmPushw word s
  | .bmCommit => Sys2Proof.Machine.execBmCommit s
  | .bmZfill nbits => Sys2Proof.Machine.execBmZfill nbits s
  | .bmGet index len => Sys2Proof.Machine.execBmGet index len s
  | .bmSize => Sys2Proof.Machine.execBmSize s
  | .rdInit rid => Sys2Proof.Machine.execRdInit rid s
  | .rdBits rid n => Sys2Proof.Machine.execRdBits rid n s
  | .rdBool rid => Sys2Proof.Machine.execRdBool rid s
  | .rdByte rid => Sys2Proof.Machine.execRdByte rid s
  | .rdSize rid => Sys2Proof.Machine.execRdSize rid s
  | .rdUnread rid => Sys2Proof.Machine.execRdUnread rid s
  | .rdHasunread rid => Sys2Proof.Machine.execRdHasunread rid s
  | .rdStat rid => Sys2Proof.Machine.execRdStat rid s

end Sys2Proof.Machine
end

