-- ==== Sys2Proof/Machine/Port.lean ====
section
/-! DEFINITION. The command port: how the next event of the host is taken, what an illegal word does, and how a
command is offered (30_encoding.md R51, R55). -/

namespace Sys2Proof.Machine

/-- The host's oldest event, and the state in which it is no longer to come; none while the host does nothing. -/
def nextEvent (s : State) : Option (HostEvent × State) :=
  match s.inbox with
  | [] => none
  | e :: rest => some (e, { s with inbox := rest })

/-- A command word that matches no row (R51): `ILLEGAL_CMD`, data 0, no state change. -/
def illegalCommand (s : State) : State := raise .illegalCmd s

/-- The host offers a command before everything else it was going to do. -/
def offerCommand (c : Command) (s : State) : State := { s with inbox := .command c :: s.inbox }

end Sys2Proof.Machine
end

