-- ==== Sys2Proof/Machine/Step.lean ====
section
/-! DEFINITION. One step of the machine: the host's oldest event, taken as one atomic step (R38, R56, R120). -/

namespace Sys2Proof.Machine

/-- One event of the host. A command is decoded (R56 step 1) and executed; with no event the block "is idle with
its state held" (R108). -/
def step (s : State) : Host.Outcome State Fault Refusal :=
  match nextEvent s with
  | none => .next s
  | some (.reset, t) => .next (applyReset t)
  | some (.takeResponse, t) => .next (deliver t)
  | some (.command c, t) =>
    match decode c with
    | .error _ => .next (illegalCommand t)
    | .ok i => exec i t

/-- The state in which the next step runs the command whose bits are `w` (log entry 6). -/
def State.withFetchWord (s : State) (nbits w : Nat) : State :=
  offerCommand (commandOfBits nbits w) s

end Sys2Proof.Machine
end

