-- ==== Sys2Proof/Machine/Assembler.lean ====
section
/-! DEFINITION. The assembler notation and the pseudo-commands (30_encoding.md R53, R54). They are the spec's way to
write what a host sends; no step of the machine uses them. -/

namespace Sys2Proof

/-- The mnemonic of R50. -/
def Opcode.mnemonic : Opcode → String
  | .bmNew => "BM_NEW" | .bmPushb => "BM_PUSHB" | .bmPushw => "BM_PUSHW"
  | .bmCommit => "BM_COMMIT" | .bmZfill => "BM_ZFILL" | .bmGet => "BM_GET" | .bmSize => "BM_SIZE"
  | .rdInit => "RD_INIT" | .rdBits => "RD_BITS" | .rdBool => "RD_BOOL" | .rdByte => "RD_BYTE"
  | .rdSize => "RD_SIZE" | .rdUnread => "RD_UNREAD" | .rdHasunread => "RD_HASUNREAD"
  | .rdStat => "RD_STAT"

/-- The operands in the order the assembler syntax writes them (R53). -/
def Instr.operands : Instr → List Nat
  | .bmNew => []
  | .bmPushb byte => [byte.toNat]
  | .bmPushw word => [word.toNat]
  | .bmCommit => []
  | .bmZfill nbits => [nbits]
  | .bmGet index len => [index, len]
  | .bmSize => []
  | .rdInit rid => [rid]
  | .rdBits rid n => [rid, n]
  | .rdBool rid => [rid]
  | .rdByte rid => [rid]
  | .rdSize rid => [rid]
  | .rdUnread rid => [rid]
  | .rdHasunread rid => [rid]
  | .rdStat rid => [rid]

/-- A command in assembler syntax, numbers in decimal (R53). -/
def Instr.asm (i : Instr) : String :=
  i.opcode.mnemonic ++ (if i.operands = [] then "" else " ") ++ ", ".intercalate (i.operands.map toString)

/-- The `cmd:arg` form of a listing, in hexadecimal (R53). -/
def Instr.listing (i : Instr) : String :=
  (encode i).cmd.toHex.toUpper ++ ":" ++ (encode i).arg.toHex.toUpper

/-- `BM_FROM_BYTES b0, ..., b(m-1)` (R54). -/
def bmFromBytes (bytes : List Byte) : List Instr :=
  .bmNew :: bytes.map .bmPushb ++ [.bmCommit]

/-- `BM_FROM_WORDS w0, ..., w(k-1)` (R54). -/
def bmFromWords (words : List Word) : List Instr :=
  .bmNew :: words.map .bmPushw ++ [.bmCommit]

/-- `BM_EMPTY` (R54). -/
def bmEmpty : List Instr := [.bmZfill 0]

end Sys2Proof
end

