-- ==== Sys2Proof/Safety.lean ====
section
/-! DEFINITION. The terms the statements use: the invariant of the machine, the tables of the rules over all
instructions, and runs of several commands. -/

namespace Sys2Proof

/-- The modes a command is accepted in (R56). -/
def Instr.acceptedIn : Instr → Machine.Mode → Bool
  | .bmNew, _ => true
  | .bmZfill _, _ => true
  | .bmPushb _, m => m == .loading
  | .bmPushw _, m => m == .loading
  | .bmCommit, m => m == .loading
  | .bmGet _ _, m => m == .built
  | .bmSize, m => m == .built
  | .rdInit _, m => m == .built
  | .rdBits _ _, m => m == .built
  | .rdBool _, m => m == .built
  | .rdByte _, m => m == .built
  | .rdSize _, m => m == .built
  | .rdUnread _, m => m == .built
  | .rdHasunread _, m => m == .built
  | .rdStat _, m => m == .built

/-- The reader number and the length of a read command (R82, R83, R84). -/
def Instr.read? : Instr → Option (Nat × Nat)
  | .rdBits rid n => some (rid, n)
  | .rdBool rid => some (rid, 1)
  | .rdByte rid => some (rid, 8)
  | .bmNew => none
  | .bmPushb _ => none
  | .bmPushw _ => none
  | .bmCommit => none
  | .bmZfill _ => none
  | .bmGet _ _ => none
  | .bmSize => none
  | .rdInit _ => none
  | .rdSize _ => none
  | .rdUnread _ => none
  | .rdHasunread _ => none
  | .rdStat _ => none

/-- The commands that begin a new Bitmap in a store of `capBits` bits: `BM_NEW`, and a `BM_ZFILL` that is accepted
(R23, R24). -/
def Instr.startsBitmap (i : Instr) (capBits : Nat) : Bool :=
  match i with
  | .bmNew => true
  | .bmZfill nbits => decide (nbits ≤ capBits)
  | .bmPushb _ => false
  | .bmPushw _ => false
  | .bmCommit => false
  | .bmGet _ _ => false
  | .bmSize => false
  | .rdInit _ => false
  | .rdBits _ _ => false
  | .rdBool _ => false
  | .rdByte _ => false
  | .rdSize _ => false
  | .rdUnread _ => false
  | .rdHasunread _ => false
  | .rdStat _ => false

/-- `BM_PUSHB` and `BM_PUSHW`, the commands that write bits into the store (R36). -/
def Instr.pushes : Instr → Bool
  | .bmPushb _ => true
  | .bmPushw _ => true
  | .bmNew => false
  | .bmZfill _ => false
  | .bmCommit => false
  | .bmGet _ _ => false
  | .bmSize => false
  | .rdInit _ => false
  | .rdBits _ _ => false
  | .rdBool _ => false
  | .rdByte _ => false
  | .rdSize _ => false
  | .rdUnread _ => false
  | .rdHasunread _ => false
  | .rdStat _ => false

/-- The commands that give context `r` a new Reader (R80, last row of its table): those that begin a new Bitmap, and
`RD_INIT r`. -/
def Instr.reinitialises (i : Instr) (r capBits : Nat) : Bool :=
  i.startsBitmap capBits || i == .rdInit r

namespace Machine

/-- `MemWrite(i, n, v)` as a relation between the store before and after (R7): bit `i + k` becomes `v[n-1-k]` and
every other bit stays. -/
def MemWritten (m m' : Memory) (i n : Nat) (v : Word) : Prop :=
  ∀ j, m'.bit j = if i ≤ j ∧ j < i + n then v.getLsbD (n - 1 - (j - i)) else m.bit j

/-- The invariant of the block: the constraints on the parameters (R5), the invariants of the Bitmap unit (R15)
and of every reader context (R19 items 1 and 4), the canonical form of the store, and the width of the latched
length (R18). -/
structure BlockInv (s : State) : Prop where
  /-- R5: the parameters of the instance are legal. -/
  config : s.config.valid
  /-- The store is in canonical form. -/
  memWf : Memory.wf s.mem = true
  /-- R15 item 1. -/
  sizeLe : s.size ≤ s.capBits
  /-- R15 item 2, of every index at or beyond `size`. -/
  padding : ∀ i, s.size ≤ i → s.mem.bit i = false
  /-- R15 item 3. -/
  loadingBytes : s.mode = .loading → s.size % 8 = 0
  /-- R19 item 1. -/
  posLe : ∀ r, (s.reader r).pos ≤ s.size
  /-- R19 item 4. -/
  loadingFresh : s.mode = .loading → ∀ r, s.reader r = Reader.fresh
  /-- R18: the latched length is one of 0..255. -/
  latchLen : ∀ r e, (s.reader r).err = some e → e.n < 256

/-- Several instructions in order, the outcome of the last. -/
def execAll : List Instr → State → Host.Outcome State Fault Refusal
  | [], s => .next s
  | i :: l, s =>
    match exec i s with
    | .next t => execAll l t
    | .fault f => .fault f
    | .refused r => .refused r

/-- Each instruction of a run with the responses it added to the response channel. -/
def transcript : List Instr → State → List (Instr × List Response)
  | [], _ => []
  | i :: l, s =>
    match exec i s with
    | .next t => (i, t.rsps.drop s.rsps.length) :: transcript l t
    | .fault _ => []
    | .refused _ => []

/-- The number of bits a sequence of read commands asks for. -/
def bitsAsked : List Instr → Nat
  | [] => 0
  | i :: l => (i.read?.getD (0, 0)).2 + bitsAsked l

/-- The transcript of read commands that all succeed from position `pos`: consecutive fields (R90 item 2). -/
def fieldsFrom (m : Memory) : Nat → List Instr → List (Instr × List Response)
  | _, [] => []
  | pos, i :: l =>
    let n := (i.read?.getD (0, 0)).2
    (i, [⟨.ok, BitVec.ofNat 64 (m.memRead pos n)⟩]) :: fieldsFrom m (pos + n) l

end Machine

end Sys2Proof
end

