-- ==== Sys2Proof/Certificates/Slice0/Obligations.lean ====
section
/-! DEFINITION. The statements about the model, from the numbered rules of the spec. -/

open Sys2Proof Sys2Proof.Machine

/-! ### Encoding (30_encoding.md) -/

/-- R45, R46, R47: decoding an encoded well-formed instruction gives it back, with every operand at every value
its field admits. -/
def Obligations.DecodeOfEncode : Prop :=
  ∀ i : Instr, i.wellFormed = true → decode (encode i) = .ok i

/-- R45, R47: what is decoded is well-formed, its encoding has the same command word, and the same argument as far
as the instruction uses it. -/
def Obligations.EncodeOfDecode : Prop :=
  ∀ (c : Command) (i : Instr), decode c = .ok i →
    i.wellFormed = true ∧ (encode i).cmd = c.cmd ∧
    (i.opcode.format.usesArg = true → i.opcode ≠ .bmPushb → (encode i).arg = c.arg) ∧
    (i.opcode = .bmPushb → (encode i).arg.extractLsb' 0 8 = c.arg.extractLsb' 0 8)

/-- R50: the decoder gives a row's command exactly to the words the row's `match` and `mask` select, the rows are
disjoint, and they are the fifteen opcodes. -/
def Obligations.DecodeSelectsTableRow : Prop :=
  (∀ (c : Command) (row : Row), row ∈ opcodeTable →
    ((∃ i, decode c = .ok i ∧ i.opcode = row.opcode) ↔ c.cmd &&& row.mask = row.pattern)) ∧
  (∀ (cmd : BitVec 32) (row row' : Row), row ∈ opcodeTable → row' ∈ opcodeTable →
    cmd &&& row.mask = row.pattern → cmd &&& row'.mask = row'.pattern → row = row') ∧
  opcodeTable.map Row.opcode = Opcode.all

/-- R45, R46, R47, R50: each row's word, with every value of the fields its format uses and every argument, decodes
to the command with exactly those operands. -/
def Obligations.EncodingsCarryOperands : Prop :=
  ∀ (arg : Word) (r : BitVec 4) (n : BitVec 8),
    let rid : BitVec 32 := r.setWidth 32 <<< 20
    let len : BitVec 32 := n.setWidth 32
    decode ⟨0x10000000#32, arg⟩ = .ok .bmNew ∧
    decode ⟨0x11000000#32, arg⟩ = .ok (.bmPushb (arg.extractLsb' 0 8)) ∧
    decode ⟨0x12000000#32, arg⟩ = .ok (.bmPushw arg) ∧
    decode ⟨0x13000000#32, arg⟩ = .ok .bmCommit ∧
    decode ⟨0x14000000#32, arg⟩ = .ok (.bmZfill arg.toNat) ∧
    decode ⟨0x20000000#32 ||| len, arg⟩ = .ok (.bmGet arg.toNat n.toNat) ∧
    decode ⟨0x21000000#32, arg⟩ = .ok .bmSize ∧
    decode ⟨0x30000000#32 ||| rid, arg⟩ = .ok (.rdInit r.toNat) ∧
    decode ⟨0x31000000#32 ||| rid ||| len, arg⟩ = .ok (.rdBits r.toNat n.toNat) ∧
    decode ⟨0x32000000#32 ||| rid, arg⟩ = .ok (.rdBool r.toNat) ∧
    decode ⟨0x33000000#32 ||| rid, arg⟩ = .ok (.rdByte r.toNat) ∧
    decode ⟨0x34000000#32 ||| rid, arg⟩ = .ok (.rdSize r.toNat) ∧
    decode ⟨0x35000000#32 ||| rid, arg⟩ = .ok (.rdUnread r.toNat) ∧
    decode ⟨0x36000000#32 ||| rid, arg⟩ = .ok (.rdHasunread r.toNat) ∧
    decode ⟨0x37000000#32 ||| rid, arg⟩ = .ok (.rdStat r.toNat)

/-- R51: a command word that matches no row is answered `ILLEGAL_CMD` (`0x10`) with data 0 and changes nothing,
whatever the argument; and the words that match no row are those of the classes (a) to (d). -/
def Obligations.IllegalWordRefused : Prop :=
  (∀ (s : State) (cmd : BitVec 32) (arg : Word) (rest : List HostEvent),
    s.inbox = .command ⟨cmd, arg⟩ :: rest → (∀ row ∈ opcodeTable, cmd &&& row.mask ≠ row.pattern) →
    step s = .next { s with inbox := rest, rsps := s.rsps ++ [⟨.illegalCmd, 0⟩] }) ∧
  Status.illegalCmd.code = 0x10#8 ∧
  (∀ cmd : BitVec 32, (∀ row ∈ opcodeTable, cmd &&& row.mask ≠ row.pattern) ↔
    ((∀ o : Opcode, opField cmd ≠ o.code) ∨
      ∃ o : Opcode, opField cmd = o.code ∧
        (zeroField cmd ≠ 0 ∨
         (o.format ∈ [.N, .A, .G] ∧ ridField cmd ≠ 0) ∨
         (o.format ∈ [.N, .A, .R] ∧ lenField cmd ≠ 0))))

/-- Words written out in the spec's own listings (95_test_vectors.md) decode to the commands they stand for. -/
def Obligations.SpecWordsDecode : Prop :=
  decode ⟨0x12000000#32, 0xFFFFFFFFAAAAAAAA#64⟩ = .ok (.bmPushw 0xFFFFFFFFAAAAAAAA#64) ∧
  decode ⟨0x11000000#32, 0xFFFFFFFFFFFFFF80#64⟩ = .ok (.bmPushb 0x80#8) ∧
  decode ⟨0x20000008#32, 0x000000000000003C#64⟩ = .ok (.bmGet 60 8) ∧
  decode ⟨0x21000000#32, 0xDEADBEEFDEADBEEF#64⟩ = .ok .bmSize ∧
  decode ⟨0x3110003C#32, 0#64⟩ = .ok (.rdBits 1 60) ∧
  decode ⟨0x31F00004#32, 0#64⟩ = .ok (.rdBits 15 4) ∧
  decode ⟨0x15000000#32, 0#64⟩ = .error .opcode ∧
  decode ⟨0x31080004#32, 0#64⟩ = .error .zero ∧
  decode ⟨0x10100000#32, 0#64⟩ = .error .rid ∧
  decode ⟨0x32000001#32, 0#64⟩ = .error .len

/-! ### The step and the port (30_encoding.md R55, R56; 20_memory.md R38) -/

/-- When the host's oldest event is a command that decodes to `i`, the step is `exec i` once the command has been taken
from the inbox (one atomic step per command, R38; decoding first, R56); and offering a command's bits makes the very
next step run it on the state as it was. The list of the host's events and the way a command is put at its head are the
model's choice (log entries 4 and 6, DESIGN CHOICE), not the rules'. -/
def Obligations.StepRunsDecoded : Prop :=
  (∀ (s : State) (c : Command) (rest : List HostEvent) (i : Instr),
    s.inbox = .command c :: rest → decode c = .ok i → step s = exec i { s with inbox := rest }) ∧
  (∀ (s : State) (nbits w : Nat) (i : Instr),
    decodeTableWord nbits w = some i → step (s.withFetchWord nbits w) = exec i s)

/-- R56: the order of the checks of every command: illegal word, reader number, mode, and only then the command's
own rule. -/
def Obligations.DecodingAndCheckingOrder : Prop :=
  ∀ (s : State) (c : Command) (rest : List HostEvent), s.inbox = .command c :: rest →
    ((∀ row ∈ opcodeTable, c.cmd &&& row.mask ≠ row.pattern) →
      step s = .next { s with inbox := rest, rsps := s.rsps ++ [⟨.illegalCmd, 0⟩] }) ∧
    (∀ i, decode c = .ok i →
      ((∃ r, i.reader? = some r ∧ s.nrd ≤ r) →
        step s = .next { s with inbox := rest, rsps := s.rsps ++ [⟨.badReader, 0⟩] }) ∧
      ((∀ r, i.reader? = some r → r < s.nrd) → i.acceptedIn s.mode = false →
        step s = .next { s with inbox := rest, rsps := s.rsps ++ [⟨.badMode, 0⟩] }) ∧
      ((∀ r, i.reader? = some r → r < s.nrd) → i.acceptedIn s.mode = true →
        step s = exec i { s with inbox := rest } ∧
        ∀ t x, step s = .next t → t.rsps = s.rsps ++ [x] → x.status ≠ .illegalCmd ∧ x.status ≠ .badReader ∧
          x.status ≠ .badMode))

/-- R48, R55, R130: every command the host offers is answered by a next state with exactly one response more,
behind the earlier ones, whose data is 0 unless its status is OK. -/
def Obligations.EveryCommandGetsOneResponse : Prop :=
  ∀ (s : State) (c : Command) (rest : List HostEvent), s.inbox = .command c :: rest →
    ∃ t x, step s = .next t ∧ t.inbox = rest ∧ t.rsps = s.rsps ++ [x] ∧ (x.status ≠ .ok → x.data = 0)

/-- R130: the response and the next state are functions of `mode`, `size`, the store, the readers and the command
alone: whatever responses are still undelivered and whatever the host will do next changes neither. -/
def Obligations.ResponseDependsOnStateAlone : Prop :=
  ∀ (i : Instr) (s : State) (ib : List HostEvent) (rs : List Response),
    ∃ t x, exec i s = .next t ∧ t.rsps = s.rsps ++ [x] ∧ t.inbox = s.inbox ∧
      exec i { s with inbox := ib, rsps := rs } = .next { t with inbox := ib, rsps := rs ++ [x] }

/-- R55, R108: with no event the block holds its state; a response taken is the oldest one, and taking one when none
is offered does nothing. The host's events as a list, and that a reset leaves the later ones to come, are the model's
choice (log entries 4 and 5). -/
def Obligations.IdleAndDelivery : Prop :=
  (∀ s : State, s.inbox = [] → step s = .next s) ∧
  (∀ (s : State) (x : Response) (rest : List HostEvent) (xs : List Response),
    s.inbox = .takeResponse :: rest → s.rsps = x :: xs →
    step s = .next { s with inbox := rest, rsps := xs }) ∧
  (∀ (s : State) (rest : List HostEvent), s.inbox = .takeResponse :: rest → s.rsps = [] →
    step s = .next { s with inbox := rest }) ∧
  (∀ (s t : State) (rest : List HostEvent), s.inbox = .reset :: rest → step s = .next t → t.inbox = rest)

/-! ### Reset (70_reset_and_hazards.md R120 to R122; 10_state.md R22) -/

/-- R120, R121: a reset event gives every piece of the block's state its reset value, whatever it was, and empties the
response channel. -/
def Obligations.ResetEventRestoresReset : Prop :=
  ∀ (s : State) (rest : List HostEvent), s.inbox = .reset :: rest →
    ∃ t, step s = .next t ∧ t.mode = .built ∧ t.size = 0 ∧ (∀ w, t.mem.word w = 0) ∧ t.nrd = s.nrd ∧
      (∀ r, t.reader r = ⟨0, none⟩) ∧ t.rsps = []

/-- R22: the reset values of every field, for every configuration. -/
def Obligations.ResetValues : Prop :=
  ∀ c : Config, let s := State.resetWith c
    s.mode = .built ∧ s.size = 0 ∧ (∀ w, s.mem.word w = 0) ∧ s.nrd = c.nrd ∧
      ∀ r, r < c.nrd → (s.reader r).pos = 0 ∧ (s.reader r).err = none

/-- R122: on the reset state of any configuration every query and read is defined: `BM_SIZE` and `RD_UNREAD` give 0,
`RD_HASUNREAD` gives 0, every `BM_GET` and every reader read gives `IndexOutOfRange`, and the read latches. So are the
two queries R122 does not list: `RD_SIZE` gives 0 (R85) and `RD_STAT` gives data 0 (R88). -/
def Obligations.FirstCommandsAfterReset : Prop :=
  ∀ (c : Config) (index len r : Nat), r < c.nrd →
    let s := State.resetWith c
    exec .bmSize s = .next { s with rsps := [⟨.ok, 0⟩] } ∧
    exec (.bmGet index len) s = .next { s with rsps := [⟨.indexOutOfRange, 0⟩] } ∧
    exec (.rdHasunread r) s = .next { s with rsps := [⟨.ok, 0⟩] } ∧
    exec (.rdUnread r) s = .next { s with rsps := [⟨.ok, 0⟩] } ∧
    exec (.rdSize r) s = .next { s with rsps := [⟨.ok, 0⟩] } ∧
    exec (.rdStat r) s = .next { s with rsps := [⟨.ok, 0⟩] } ∧
    ∀ i n, i.read? = some (r, n) →
      exec i s = .next { s with rd := s.rd.set r ⟨0, some ⟨.indexOutOfRange, n⟩⟩, rsps := [⟨.indexOutOfRange, 0⟩] }

/-! ### The invariant (10_state.md R15, R19) -/

/-- R15, R19, R22: the invariant holds right after reset, for every legal configuration; and it holds of `State.reset`,
whose configuration (`CAPW = 4`, `NRD = 2`) is the model's choice (log entry 1, DESIGN CHOICE). -/
def Obligations.InvariantAtReset : Prop :=
  (∀ c : Config, c.valid → BlockInv (State.resetWith c)) ∧ BlockInv State.reset

/-- R15, R19: every step keeps the invariant. -/
def Obligations.InvariantKeptByEveryStep : Prop :=
  ∀ s t : State, BlockInv s → step s = .next t → BlockInv t

/-- No step changes `CAPW` or `NRD`. That the two parameters, which R5 leaves open for one machine, are held in the
state and kept by every step, a reset among them, is the model's choice (log entry 1, DESIGN CHOICE). -/
def Obligations.ParametersNeverChange : Prop :=
  ∀ s t : State, step s = .next t → t.capw = s.capw ∧ t.nrd = s.nrd

/-! ### Refusals and modes (60_exceptions.md R102; 40_bitmap_construction.md R60) -/

/-- R102: a command answered with a refusal status, by the decoder or by its own rule, changes no state. The statuses
have the codes of R100, and the refusals are those of the codes `0x10` to `0x14`. -/
def Obligations.RefusalsChangeNothing : Prop :=
  (∀ (i : Instr) (s t : State) (x : Response), exec i s = .next t → t.rsps = s.rsps ++ [x] →
    x.status.isRefusal = true → t = { s with rsps := s.rsps ++ [x] }) ∧
  (∀ (c : Command) (rest : List HostEvent) (s t : State) (x : Response), s.inbox = .command c :: rest →
    step s = .next t → t.rsps = s.rsps ++ [x] → x.status.isRefusal = true →
    t = { s with inbox := rest, rsps := s.rsps ++ [x] }) ∧
  (∀ st : Status, st.code = match st with
    | .ok => 0x00#8
    | .indexOutOfRange => 0x01#8
    | .lengthOutOfRange => 0x02#8
    | .lengthExceedsRange => 0x03#8
    | .illegalCmd => 0x10#8
    | .badReader => 0x11#8
    | .badMode => 0x12#8
    | .misalignedPush => 0x13#8
    | .capacity => 0x14#8) ∧
  (∀ st : Status, st.isRefusal = true ↔ st.code ∈ [0x10#8, 0x11#8, 0x12#8, 0x13#8, 0x14#8])

/-- R60: the mode after every command, which commands are refused `BAD_MODE` in which mode, and the mode after an
illegal command and after reset. -/
def Obligations.ModeTransitions : Prop :=
  (∀ (i : Instr) (s t : State), exec i s = .next t →
    t.mode = match i with
      | .bmNew => .loading
      | .bmCommit => .built
      | .bmZfill nbits => if nbits ≤ s.capBits then .built else s.mode
      | _ => s.mode) ∧
  (∀ (i : Instr) (s : State), (∀ r, i.reader? = some r → r < s.nrd) → i.acceptedIn s.mode = false →
    exec i s = .next { s with rsps := s.rsps ++ [⟨.badMode, 0⟩] }) ∧
  (∀ (s t : State) (c : Command) (e : Illegal) (rest : List HostEvent), s.inbox = .command c :: rest →
    decode c = .error e → step s = .next t → t.mode = s.mode) ∧
  (∀ (s t : State) (rest : List HostEvent), s.inbox = .reset :: rest → step s = .next t → t.mode = .built)

/-! ### Bitmap construction (40_bitmap_construction.md) -/

/-- R61: `BM_NEW` completes in both modes, clearing the store and every reader context. -/
def Obligations.NewBitmapStarts : Prop :=
  ∀ s : State, ∃ t, exec .bmNew s = .next t ∧
    t = { s with mode := .loading, size := 0, mem := t.mem, rd := t.rd, rsps := s.rsps ++ [⟨.ok, 0⟩] } ∧
    (∀ w, t.mem.word w = 0) ∧ t.nrd = s.nrd ∧ ∀ r, t.reader r = ⟨0, none⟩

/-- R62: `BM_PUSHB` in `LOADING` with room completes: the byte is ORed into its word, which is `MemWrite(size, 8,
byte)`, the byte at address `size / 8` is the only one that changes, and `size` grows by 8. Without room it is refused
`CAPACITY`, which for a size that is a multiple of 8 within the capacity is exactly when the store is full; in `BUILT`
it is refused `BAD_MODE`. The premises on `size` and on the bits beyond it are the invariant's (R15 items 2 and 3). -/
def Obligations.PushByteAppends : Prop :=
  ∀ (byte : Byte) (s : State),
    (s.mode = .loading → s.size % 8 = 0 → (∀ i, s.size ≤ i → s.mem.bit i = false) → s.size + 8 ≤ s.capBits →
      ∃ m : Memory,
        exec (.bmPushb byte) s =
          .next { s with mem := m, size := s.size + 8, rsps := s.rsps ++ [⟨.ok, 0⟩] } ∧
        (∀ w, m.word w = if w = s.size / 64 then s.mem.word w ||| (byte.setWidth 64 <<< (56 - s.size % 64))
          else s.mem.word w) ∧
        MemWritten s.mem m s.size 8 (byte.setWidth 64) ∧
        (∀ a, a ≠ s.size / 8 → m.read a = s.mem.read a) ∧ m.read (s.size / 8) = byte) ∧
    (s.mode = .loading → s.capBits < s.size + 8 →
      exec (.bmPushb byte) s = .next { s with rsps := s.rsps ++ [⟨.capacity, 0⟩] }) ∧
    (s.size % 8 = 0 → s.size ≤ s.capBits → (s.capBits < s.size + 8 ↔ s.size = s.capBits)) ∧
    (s.mode = .built → exec (.bmPushb byte) s = .next { s with rsps := s.rsps ++ [⟨.badMode, 0⟩] })

/-- R63: `BM_PUSHW` in `LOADING` at a word boundary with room completes: `store[size / 64]` becomes the word, which
is `MemWrite(size, 64, word)`, the eight bytes from address `size / 8` are the only ones that change, and `size`
grows by 64. Off a word boundary it is refused `MISALIGNED_PUSH`, whether or not it would fit, and on one without room
`CAPACITY`, which within the capacity is exactly when the store is full; in `BUILT` it is refused `BAD_MODE`. -/
def Obligations.PushWordAppends : Prop :=
  ∀ (word : Word) (s : State),
    (s.mode = .loading → s.size % 64 = 0 → s.size + 64 ≤ s.capBits →
      ∃ m : Memory,
        exec (.bmPushw word) s =
          .next { s with mem := m, size := s.size + 64, rsps := s.rsps ++ [⟨.ok, 0⟩] } ∧
        (∀ w, m.word w = if w = s.size / 64 then word else s.mem.word w) ∧
        MemWritten s.mem m s.size 64 word ∧
        (∀ a, a < s.size / 8 ∨ s.size / 8 + 8 ≤ a → m.read a = s.mem.read a)) ∧
    (s.mode = .loading → s.size % 64 ≠ 0 →
      exec (.bmPushw word) s = .next { s with rsps := s.rsps ++ [⟨.misalignedPush, 0⟩] }) ∧
    (s.mode = .loading → s.size % 64 = 0 → s.capBits < s.size + 64 →
      exec (.bmPushw word) s = .next { s with rsps := s.rsps ++ [⟨.capacity, 0⟩] }) ∧
    (s.size % 64 = 0 → s.size ≤ s.capBits → (s.capBits < s.size + 64 ↔ s.size = s.capBits)) ∧
    (s.mode = .built → exec (.bmPushw word) s = .next { s with rsps := s.rsps ++ [⟨.badMode, 0⟩] })

/-- R64: `BM_COMMIT` in `LOADING` completes and changes the mode alone; in `BUILT` it is refused `BAD_MODE`. -/
def Obligations.CommitBuilds : Prop :=
  ∀ s : State,
    (s.mode = .loading →
      exec .bmCommit s = .next { s with mode := .built, rsps := s.rsps ++ [⟨.ok, 0⟩] }) ∧
    (s.mode = .built → exec .bmCommit s = .next { s with rsps := s.rsps ++ [⟨.badMode, 0⟩] })

/-- R65: `BM_ZFILL` completes in both modes for every size up to the capacity, leaving a Bitmap of zero bits and
fresh readers; beyond the capacity it is refused `CAPACITY` and changes nothing. -/
def Obligations.ZeroFillBuilds : Prop :=
  ∀ (nbits : Nat) (s : State),
    (nbits ≤ s.capBits → ∃ t, exec (.bmZfill nbits) s = .next t ∧
      t = { s with mode := .built, size := nbits, mem := t.mem, rd := t.rd, rsps := s.rsps ++ [⟨.ok, 0⟩] } ∧
      (∀ w, t.mem.word w = 0) ∧ t.nrd = s.nrd ∧ ∀ r, t.reader r = ⟨0, none⟩) ∧
    (s.capBits < nbits → exec (.bmZfill nbits) s = .next { s with rsps := s.rsps ++ [⟨.capacity, 0⟩] })

/-- R67: at a word boundary, pushing a word leaves the same state as pushing its eight bytes, most significant
first, apart from the responses (one against eight). The premises on the store are the invariant's. -/
def Obligations.WordPushIsEightBytePushes : Prop :=
  ∀ (word : Word) (s : State), s.mode = .loading → s.size % 64 = 0 → s.size + 64 ≤ s.capBits →
    Memory.wf s.mem = true → (∀ i, s.size ≤ i → s.mem.bit i = false) →
    ∃ t u, execAll ((List.range 8).map fun k => .bmPushb (word.extractLsb' (56 - 8 * k) 8)) s = .next t ∧
      exec (.bmPushw word) s = .next u ∧ t = { u with rsps := t.rsps } ∧
      t.rsps = s.rsps ++ List.replicate 8 ⟨.ok, 0⟩

/-- R66 items 1 and 4, R77 item 8: from any state, `BM_FROM_BYTES` of bytes that fit builds the Bitmap that holds them
in order, most significant bit first, all other bits 0, with fresh readers; and `get` reads each byte back. -/
def Obligations.ConstructionFromBytes : Prop :=
  ∀ (bytes : List Byte) (s : State), bytes.length ≤ 8 * s.capw →
    ∃ t, execAll (bmFromBytes bytes) s = .next t ∧ t.mode = .built ∧ t.size = 8 * bytes.length ∧
      t.rsps = s.rsps ++ List.replicate (bytes.length + 2) ⟨.ok, 0⟩ ∧
      (∀ r, t.reader r = ⟨0, none⟩) ∧
      (∀ j u, j < bytes.length → u < 8 → t.mem.bit (8 * j + u) = (bytes.getD j 0).getLsbD (7 - u)) ∧
      (∀ i, 8 * bytes.length ≤ i → t.mem.bit i = false) ∧
      (∀ j, j < bytes.length → t.get (8 * j) 8 = .ok ((bytes.getD j 0).setWidth 64))

/-- R66 items 2 and 4: from any state, `BM_FROM_WORDS` of words that fit builds the Bitmap whose store is the words
in order and 0 beyond them, with fresh readers. -/
def Obligations.ConstructionFromWords : Prop :=
  ∀ (words : List Word) (s : State), words.length ≤ s.capw →
    ∃ t, execAll (bmFromWords words) s = .next t ∧ t.mode = .built ∧ t.size = 64 * words.length ∧
      t.rsps = s.rsps ++ List.replicate (words.length + 2) ⟨.ok, 0⟩ ∧
      (∀ r, t.reader r = ⟨0, none⟩) ∧ ∀ w, t.mem.word w = words.getD w 0

/-! ### The store and the extraction (20_memory.md R30, R31; 41_bitmap_query.md) -/

/-- R30: bitmap bit `i` is value position `63 - i mod 64` of word `i / 64`, and value position `p` of word `w` is
bitmap bit `64w + (63 - p)`. -/
def Obligations.StoreBitLayout : Prop :=
  ∀ m : Memory,
    (∀ i, (m.bit i).toNat = ((m.word (i / 64) >>> (63 - i % 64)) &&& 1#64).toNat) ∧
    (∀ w p, p < 64 → (m.word w).getLsbD p = m.bit (64 * w + (63 - p)))

/-- The byte at byte address `j` holds bitmap bits `8j .. 8j+7`, most significant first, and stands in word `j / 8` at
value positions `63 - 8*(j mod 8)` down to `56 - 8*(j mod 8)`. R31 says so of byte `j` of a byte-constructed Bitmap;
that the store is held as bytes at such addresses is the model's reading (log entry 3, DEDUCED). -/
def Obligations.StoreByteLayout : Prop :=
  ∀ m : Memory,
    (∀ j u, u < 8 → m.bit (8 * j + u) = (m.read j).getLsbD (7 - u)) ∧
    (∀ j, (m.word (j / 8)).extractLsb' (56 - 8 * (j % 8)) 8 = m.read j)

/-- R73: the shift/mask algorithm computes `MemRead`. -/
def Obligations.ExtractionIsMemRead : Prop :=
  ∀ (m : Memory) (index length : Nat), 1 ≤ length → length ≤ 64 →
    (extract m index length).toNat = m.memRead index length

/-- R78: the funnel-shifter form gives the same value, whatever the second word is when the range lies in one word. -/
def Obligations.FunnelFormAgrees : Prop :=
  ∀ (m : Memory) (index length : Nat) (lo : Word), 1 ≤ length → length ≤ 64 →
    let last := index % 64 + length - 1
    (64 ≤ last → lo = m.word (index / 64 + 1)) →
    (extract m index length).toNat =
      ((m.word (index / 64) ++ lo : BitVec 128) >>> (127 - last)).toNat % 2 ^ length ∧
    127 - last = 128 - index % 64 - length ∧ 1 ≤ 127 - last ∧ 127 - last ≤ 127

/-- R77 items 1, 2, 3 and 5: the range of a success, when `get` succeeds, which error it gives, and a single bit. -/
def Obligations.GetSuccessAndErrors : Prop :=
  ∀ (size : Nat) (m : Memory) (index length : Nat),
    (∀ b, Machine.get size m index length = .ok b → b.toNat < 2 ^ length) ∧
    ((∃ b, Machine.get size m index length = .ok b) ↔
      index < size ∧ (length = 0 ∨ length ≤ 64 ∧ index + length ≤ size)) ∧
    (Machine.get size m index length = .error .indexOutOfRange ↔ size ≤ index) ∧
    (Machine.get size m index length = .error .lengthOutOfRange ↔ index < size ∧ 64 < length) ∧
    (Machine.get size m index length = .error .lengthExceedsRange ↔
      index < size ∧ 1 ≤ length ∧ length ≤ 64 ∧ size < index + length) ∧
    (index < size → Machine.get size m index 1 = .ok (if m.bit index then 1 else 0))

/-- R77 item 4: a successful range splits into two, and is their concatenation. -/
def Obligations.GetConcatenates : Prop :=
  ∀ (size : Nat) (m : Memory) (i a b : Nat) (x : Word), 1 ≤ a → 1 ≤ b → a + b ≤ 64 →
    Machine.get size m i (a + b) = .ok x →
    ∃ xa xb, Machine.get size m i a = .ok xa ∧ Machine.get size m (i + a) b = .ok xb ∧ x = (xa <<< b) ||| xb

/-- R71, R75: `BM_GET` in `BUILT` completes and changes no state: the four checks in their order, and otherwise the
exact bits of the range. In `LOADING` it is refused `BAD_MODE`. -/
def Obligations.GetAnswers : Prop :=
  ∀ (index len : Nat) (s : State),
    (s.mode = .built →
      exec (.bmGet index len) s = .next { s with rsps := s.rsps ++
        [if s.size ≤ index then ⟨.indexOutOfRange, 0⟩
         else if len = 0 then ⟨.ok, 0⟩
         else if 64 < len then ⟨.lengthOutOfRange, 0⟩
         else if s.size ≤ index + len - 1 then ⟨.lengthExceedsRange, 0⟩
         else ⟨.ok, BitVec.ofNat 64 (s.mem.memRead index len)⟩] }) ∧
    (s.mode = .loading → exec (.bmGet index len) s = .next { s with rsps := s.rsps ++ [⟨.badMode, 0⟩] })

/-- R76, R85: `BM_SIZE` and `RD_SIZE` in `BUILT` complete, answer `size`, whatever the Reader's state, and change
nothing; `size` fits the data (R13). In `LOADING` they are refused `BAD_MODE`. -/
def Obligations.SizeReported : Prop :=
  ∀ s : State,
    (s.mode = .built → s.size < 2 ^ 48 →
      ∃ d : Word, d.toNat = s.size ∧
        exec .bmSize s = .next { s with rsps := s.rsps ++ [⟨.ok, d⟩] } ∧
        ∀ r, r < s.nrd → exec (.rdSize r) s = .next { s with rsps := s.rsps ++ [⟨.ok, d⟩] }) ∧
    (s.mode = .loading →
      exec .bmSize s = .next { s with rsps := s.rsps ++ [⟨.badMode, 0⟩] } ∧
      ∀ r, r < s.nrd → exec (.rdSize r) s = .next { s with rsps := s.rsps ++ [⟨.badMode, 0⟩] })

/-! ### Readers (42_reader.md, 60_exceptions.md R104, R105) -/

/-- R81: `RD_INIT` in `BUILT` on an existing context completes and gives it a new Reader, touching nothing else. -/
def Obligations.ReaderConstructed : Prop :=
  ∀ (r : Nat) (s : State), s.mode = .built → r < s.nrd →
    exec (.rdInit r) s = .next { s with rd := s.rd.set r ⟨0, none⟩, rsps := s.rsps ++ [⟨.ok, 0⟩] }

/-- R82: `RD_BITS` in `BUILT` on an existing context: on an Errored Reader it replays the latch and changes nothing;
on an Active one it completes with the next `n` bits and advances, or latches its error with the position unchanged. -/
def Obligations.ReadBitsMeaning : Prop :=
  ∀ (r n : Nat) (s : State), s.mode = .built → r < s.nrd →
    let pos := (s.reader r).pos
    (∀ e, (s.reader r).err = some e →
      exec (.rdBits r n) s = .next { s with rsps := s.rsps ++ [⟨e.kind.status, 0⟩] }) ∧
    ((s.reader r).err = none → pos < s.size → n ≤ 64 → pos + n ≤ s.size →
      exec (.rdBits r n) s = .next { s with
        rd := s.rd.set r ⟨pos + n, none⟩
        rsps := s.rsps ++ [⟨.ok, BitVec.ofNat 64 (s.mem.memRead pos n)⟩] }) ∧
    ((s.reader r).err = none → s.size ≤ pos →
      exec (.rdBits r n) s = .next { s with
        rd := s.rd.set r ⟨pos, some ⟨.indexOutOfRange, n⟩⟩
        rsps := s.rsps ++ [⟨.indexOutOfRange, 0⟩] }) ∧
    ((s.reader r).err = none → pos < s.size → 64 < n →
      exec (.rdBits r n) s = .next { s with
        rd := s.rd.set r ⟨pos, some ⟨.lengthOutOfRange, n⟩⟩
        rsps := s.rsps ++ [⟨.lengthOutOfRange, 0⟩] }) ∧
    ((s.reader r).err = none → pos < s.size → n ≤ 64 → s.size < pos + n →
      exec (.rdBits r n) s = .next { s with
        rd := s.rd.set r ⟨pos, some ⟨.lengthExceedsRange, n⟩⟩
        rsps := s.rsps ++ [⟨.lengthExceedsRange, 0⟩] })

/-- R83: `RD_BOOL` in `BUILT` on an existing context: the next bit as 0 or 1 and an advance by 1; the only fresh error
is `IndexOutOfRange`, at the end of the data; on an Errored Reader the replay. -/
def Obligations.ReadBoolMeaning : Prop :=
  ∀ (r : Nat) (s : State), s.mode = .built → r < s.nrd →
    let pos := (s.reader r).pos
    (∀ e, (s.reader r).err = some e →
      exec (.rdBool r) s = .next { s with rsps := s.rsps ++ [⟨e.kind.status, 0⟩] }) ∧
    ((s.reader r).err = none → pos < s.size →
      exec (.rdBool r) s = .next { s with
        rd := s.rd.set r ⟨pos + 1, none⟩
        rsps := s.rsps ++ [⟨.ok, if s.mem.bit pos then 1 else 0⟩] }) ∧
    ((s.reader r).err = none → s.size ≤ pos →
      exec (.rdBool r) s = .next { s with
        rd := s.rd.set r ⟨pos, some ⟨.indexOutOfRange, 1⟩⟩
        rsps := s.rsps ++ [⟨.indexOutOfRange, 0⟩] })

/-- R84: `RD_BYTE` in `BUILT` on an existing context: the next eight bits, zero above them, and an advance by 8; fresh
errors `IndexOutOfRange` at the end and `LengthExceedsRange` with fewer than eight bits left; on an Errored Reader
the replay. -/
def Obligations.ReadByteMeaning : Prop :=
  ∀ (r : Nat) (s : State), s.mode = .built → r < s.nrd →
    let pos := (s.reader r).pos
    (∀ e, (s.reader r).err = some e →
      exec (.rdByte r) s = .next { s with rsps := s.rsps ++ [⟨e.kind.status, 0⟩] }) ∧
    ((s.reader r).err = none → pos + 8 ≤ s.size →
      ∃ b : Byte, b.toNat = s.mem.memRead pos 8 ∧
        exec (.rdByte r) s = .next { s with
          rd := s.rd.set r ⟨pos + 8, none⟩
          rsps := s.rsps ++ [⟨.ok, b.setWidth 64⟩] }) ∧
    ((s.reader r).err = none → s.size ≤ pos →
      exec (.rdByte r) s = .next { s with
        rd := s.rd.set r ⟨pos, some ⟨.indexOutOfRange, 8⟩⟩
        rsps := s.rsps ++ [⟨.indexOutOfRange, 0⟩] }) ∧
    ((s.reader r).err = none → pos < s.size → s.size < pos + 8 →
      exec (.rdByte r) s = .next { s with
        rd := s.rd.set r ⟨pos, some ⟨.lengthExceedsRange, 8⟩⟩
        rsps := s.rsps ++ [⟨.lengthExceedsRange, 0⟩] })

/-- R86, R87: `RD_UNREAD` and `RD_HASUNREAD` in `BUILT` on an existing context complete, Active or Errored, and change
nothing: the number of bits between the position and `size`, and whether there are any. The premises on `pos` and
`size` are the invariant's. -/
def Obligations.UnreadReported : Prop :=
  ∀ (r : Nat) (s : State), s.mode = .built → r < s.nrd → (s.reader r).pos ≤ s.size → s.size < 2 ^ 48 →
    ∃ d f : Word,
      exec (.rdUnread r) s = .next { s with rsps := s.rsps ++ [⟨.ok, d⟩] } ∧
      d.toNat + (s.reader r).pos = s.size ∧
      exec (.rdHasunread r) s = .next { s with rsps := s.rsps ++ [⟨.ok, f⟩] } ∧
      (f = 1 ↔ (s.reader r).pos < s.size) ∧ (f = 0 ↔ (s.reader r).pos = s.size)

/-- R88: `RD_STAT` in `BUILT` on an existing context completes and changes nothing: `data[63:16]` is the position,
`data[15:8]` and `data[7:0]` the latched length and code, 0 while Active. The premises on the widths are the
invariant's. -/
def Obligations.StatusReported : Prop :=
  ∀ (r : Nat) (s : State), s.mode = .built → r < s.nrd → (s.reader r).pos < 2 ^ 48 →
    (∀ e, (s.reader r).err = some e → e.n < 256) →
    ∃ d : Word, exec (.rdStat r) s = .next { s with rsps := s.rsps ++ [⟨.ok, d⟩] } ∧
      (d.extractLsb' 16 48).toNat = (s.reader r).pos ∧
      ((s.reader r).err = none → d.toNat = (s.reader r).pos * 2 ^ 16) ∧
      (∀ e, (s.reader r).err = some e →
        (d.extractLsb' 8 8).toNat = e.n ∧
        d.extractLsb' 0 8 = match e.kind with
          | .indexOutOfRange => 0x01#8
          | .lengthOutOfRange => 0x02#8
          | .lengthExceedsRange => 0x03#8)

/-- R91: a zero-length read of an Active Reader that has consumed everything fails with `IndexOutOfRange` and
latches (1, 0). -/
def Obligations.ZeroLengthReadAtEnd : Prop :=
  ∀ (r : Nat) (s : State), s.mode = .built → r < s.nrd → s.reader r = ⟨s.size, none⟩ →
    exec (.rdBits r 0) s = .next { s with
      rd := s.rd.set r ⟨s.size, some ⟨.indexOutOfRange, 0⟩⟩
      rsps := s.rsps ++ [⟨.indexOutOfRange, 0⟩] }

/-- R104: a failing read on an Active Reader latches its error, keeps the position, answers (code, 0) and changes
nothing else; and a latch becomes present in no other way. -/
def Obligations.FailingReadLatches : Prop :=
  (∀ (i : Instr) (r n : Nat) (s : State) (e : ErrKind), i.read? = some (r, n) → s.mode = .built → r < s.nrd →
    (s.reader r).err = none → s.get (s.reader r).pos n = .error e →
    exec i s = .next { s with
      rd := s.rd.set r ⟨(s.reader r).pos, some ⟨e, n⟩⟩
      rsps := s.rsps ++ [⟨e.status, 0⟩] }) ∧
  (∀ (i : Instr) (r : Nat) (s t : State) (e : Latched), exec i s = .next t → (s.reader r).err = none →
    (t.reader r).err = some e →
    i.read? = some (r, e.n) ∧ s.mode = .built ∧ s.get (s.reader r).pos e.n = .error e.kind)

/-- R105: an Errored Reader changes only by being replaced by a new one, at position 0 and Active, and only by
`RD_INIT` on its context, `BM_NEW`, an accepted `BM_ZFILL` or reset, so its latch is never overwritten; and those four
do replace it. -/
def Obligations.ErroredNeverReturns : Prop :=
  (∀ (i : Instr) (r : Nat) (s t : State), exec i s = .next t → (s.reader r).err ≠ none →
    t.reader r ≠ s.reader r → i.reinitialises r s.capBits = true ∧ t.reader r = ⟨0, none⟩) ∧
  (∀ (i : Instr) (r : Nat) (s t : State), exec i s = .next t → s.mode = .built → r < s.nrd →
    i.reinitialises r s.capBits = true → t.reader r = ⟨0, none⟩) ∧
  (∀ (r : Nat) (s t : State) (rest : List HostEvent), s.inbox = .reset :: rest → step s = .next t →
    t.reader r = ⟨0, none⟩)

/-- R89: a read command that answers an extraction error leaves its context Errored with that error; and from then on,
until the context is re-initialised, every read command on it, whatever its kind and operands and whatever commands
stand between, answers the latched error with data 0, and the context does not change. -/
def Obligations.StickyErrorForever : Prop :=
  (∀ (i : Instr) (r n : Nat) (s t : State) (x : Response), i.read? = some (r, n) → exec i s = .next t →
    t.rsps = s.rsps ++ [x] → x.status ≠ .ok → x.status.isRefusal = false →
    t.mode = .built ∧ r < t.nrd ∧ ∃ e, (t.reader r).err = some e ∧ e.kind.status = x.status) ∧
  (∀ (l : List Instr) (r : Nat) (s : State) (e : Latched), s.mode = .built → r < s.nrd →
    (s.reader r).err = some e → (∀ i ∈ l, i.reinitialises r s.capBits = false) →
    ∃ t, execAll l s = .next t ∧ t.reader r = s.reader r ∧ (transcript l s).map Prod.fst = l ∧
      ∀ p ∈ transcript l s, (∃ n, p.1.read? = some (r, n)) → p.2 = [⟨e.kind.status, 0⟩])

/-- R17, R90 item 4: a position changes only by a successful read on the context, forward by exactly the length of
the read, or by the context being given a new Reader. -/
def Obligations.PositionOnlyForward : Prop :=
  ∀ (i : Instr) (r : Nat) (s t : State), exec i s = .next t →
    (t.reader r).pos = (s.reader r).pos ∨
    (∃ n d, i.read? = some (r, n) ∧ (t.reader r).pos = (s.reader r).pos + n ∧
      t.rsps = s.rsps ++ [⟨.ok, d⟩] ∧ (s.reader r).err = none ∧ (t.reader r).err = none) ∨
    (i.reinitialises r s.capBits = true ∧ t.reader r = ⟨0, none⟩)

/-- R16: a command other than `BM_NEW` and an accepted `BM_ZFILL` leaves every reader context alone but the one it
names. -/
def Obligations.OtherReadersUntouched : Prop :=
  ∀ (i : Instr) (q : Nat) (s t : State), exec i s = .next t → i.startsBitmap s.capBits = false →
    i.reader? ≠ some q → t.reader q = s.reader q

/-! ### Frames over all commands (10_state.md R23; 20_memory.md R35, R36) -/

/-- R23: while `mode = BUILT` no command but `BM_NEW` and an accepted `BM_ZFILL` changes the store, `size` or `mode`,
and the query and reader commands change them in no mode. -/
def Obligations.BitmapImmutable : Prop :=
  ∀ (i : Instr) (s t : State), exec i s = .next t →
    (s.mode = .built ∧ i.startsBitmap s.capBits = false ∨
      i.opcode ∈ [.bmGet, .bmSize, .rdInit, .rdBits, .rdBool, .rdByte, .rdSize, .rdUnread, .rdHasunread, .rdStat]) →
    t.mem = s.mem ∧ (∀ a, t.mem.read a = s.mem.read a) ∧ t.size = s.size ∧ t.mode = s.mode

/-- R36: the store changes only by a push in `LOADING` mode or by the clearing of `BM_NEW` and an accepted
`BM_ZFILL`. -/
def Obligations.StoreWritesOnlyInConstruction : Prop :=
  ∀ (i : Instr) (s t : State), exec i s = .next t → t.mem ≠ s.mem →
    i.startsBitmap s.capBits = true ∨ (s.mode = .loading ∧ i.pushes = true ∧ s.size < t.size)

/-- R35: `BM_GET`, `BM_SIZE`, `RD_SIZE`, `RD_UNREAD`, `RD_HASUNREAD` and `RD_STAT` change no state at all, in any mode
and whatever they answer. -/
def Obligations.QueriesChangeNothing : Prop :=
  ∀ (i : Instr) (s t : State), exec i s = .next t →
    i.opcode ∈ [.bmGet, .bmSize, .rdSize, .rdUnread, .rdHasunread, .rdStat] →
    ∃ x, t = { s with rsps := s.rsps ++ [x] }

/-! ### Laws of the Reader over sequences (42_reader.md section 3; 70_reset_and_hazards.md R125) -/

/-- R90 items 1 and 2: reads of 1 to 64 bits on an Active Reader that together fit all succeed; their data are the
consecutive fields of the Bitmap, and the position grows by the sum of their lengths. -/
def Obligations.SequentialReadsAreFields : Prop :=
  ∀ (l : List Instr) (r : Nat) (s : State), s.mode = .built → r < s.nrd → (s.reader r).err = none →
    (∀ i ∈ l, ∃ n, i.read? = some (r, n) ∧ 1 ≤ n ∧ n ≤ 64) → (s.reader r).pos + bitsAsked l ≤ s.size →
    ∃ t, execAll l s = .next t ∧ transcript l s = fieldsFrom s.mem (s.reader r).pos l ∧
      t.reader r = ⟨(s.reader r).pos + bitsAsked l, none⟩

/-- R125: the batched error check is sound. After any sequence of reads on one Active Reader, if the code `RD_STAT`
reports is 0, every read answered OK with the field at its intended boundary; if it is not 0, the reads before the
first failing one did, that one and every later one answered the code with data 0, and the position is the boundary
of the first field that could not be read. -/
def Obligations.BatchedCheckSound : Prop :=
  ∀ (l : List Instr) (r : Nat) (s : State), s.mode = .built → r < s.nrd → (s.reader r).err = none →
    (∀ i ∈ l, ∃ n, i.read? = some (r, n)) →
    ∃ (t : State) (d : Word), execAll l s = .next t ∧
      exec (.rdStat r) t = .next { t with rsps := t.rsps ++ [⟨.ok, d⟩] } ∧
      (d.extractLsb' 0 8 = 0 →
        transcript l s = fieldsFrom s.mem (s.reader r).pos l ∧
        (t.reader r).pos = (s.reader r).pos + bitsAsked l) ∧
      (d.extractLsb' 0 8 ≠ 0 →
        ∃ pre i post st, l = pre ++ i :: post ∧ st.code = d.extractLsb' 0 8 ∧ st ≠ .ok ∧
          transcript l s =
            fieldsFrom s.mem (s.reader r).pos pre ++ (i :: post).map (fun j => (j, [⟨st, 0⟩])) ∧
          (t.reader r).pos = (s.reader r).pos + bitsAsked pre)

/-- R92: a command on context `r` writes that context alone; and for a fixed Bitmap, the responses to the commands
addressed to context `r` and the final context are the same whatever commands for other contexts, or on the Bitmap,
are interleaved with them. -/
def Obligations.ReaderContextsIndependent : Prop :=
  (∀ (i : Instr) (r : Nat) (s t : State), i.reader? = some r → exec i s = .next t →
    t = { s with rd := s.rd.set r (t.reader r), rsps := t.rsps }) ∧
  (∀ (l : List Instr) (r : Nat) (s : State), s.mode = .built → (∀ i ∈ l, i.startsBitmap s.capBits = false) →
    ∃ t u, execAll l s = .next t ∧
      execAll (l.filter fun i => i.reader? == some r) s = .next u ∧ t.reader r = u.reader r ∧
      (transcript l s).filter (fun p => p.1.reader? == some r) =
        transcript (l.filter fun i => i.reader? == some r) s)
end

