-- ==== Sys2Proof/Laws/Decode.lean ====
section
/-! SUPPORT. The fields of a packed command word, the opcode map, and the cases of the decoder (R45, R50, R51). -/

namespace Sys2Proof

section fields
variable (op : BitVec 8) (rid : BitVec 4) (zero : BitVec 12) (len : BitVec 8)

@[simp] theorem opField_packCmd : opField (packCmd op rid zero len) = op := by
  apply BitVec.eq_of_getLsbD_eq
  intro p hp
  simp only [opField, packCmd, BitVec.getLsbD_extractLsb', BitVec.getLsbD_append]
  simp [hp, show ¬(24 + p < 8) by omega, show ¬(24 + p - 8 < 12) by omega,
    show ¬(24 + p - 8 - 12 < 4) by omega, show 24 + p - 8 - 12 - 4 = p by omega]

@[simp] theorem ridField_packCmd : ridField (packCmd op rid zero len) = rid := by
  apply BitVec.eq_of_getLsbD_eq
  intro p hp
  simp only [ridField, packCmd, BitVec.getLsbD_extractLsb', BitVec.getLsbD_append]
  simp [hp, show ¬(20 + p < 8) by omega, show ¬(20 + p - 8 < 12) by omega,
    show 20 + p - 8 - 12 = p by omega]

@[simp] theorem zeroField_packCmd : zeroField (packCmd op rid zero len) = zero := by
  apply BitVec.eq_of_getLsbD_eq
  intro p hp
  simp only [zeroField, packCmd, BitVec.getLsbD_extractLsb', BitVec.getLsbD_append]
  simp [hp]

@[simp] theorem lenField_packCmd : lenField (packCmd op rid zero len) = len := by
  apply BitVec.eq_of_getLsbD_eq
  intro p hp
  simp only [lenField, packCmd, BitVec.getLsbD_extractLsb', BitVec.getLsbD_append]
  simp [hp]

end fields

/-- A command word is its four fields. -/
theorem packCmd_fields (cmd : BitVec 32) :
    packCmd (opField cmd) (ridField cmd) (zeroField cmd) (lenField cmd) = cmd := by
  apply BitVec.eq_of_getLsbD_eq
  intro p hp
  simp only [packCmd, opField, ridField, zeroField, lenField, BitVec.getLsbD_append, BitVec.getLsbD_extractLsb']
  by_cases h1 : p < 8
  · simp [h1]
  · by_cases h2 : p - 8 < 12
    · simp [h1, h2, show 8 + (p - 8) = p by omega]
    · by_cases h3 : p - 8 - 12 < 4
      · simp [h1, h2, h3, show 20 + (p - 8 - 12) = p by omega]
      · simp [h1, h2, h3, show p - 8 - 12 - 4 < 8 by omega, show 24 + (p - 8 - 12 - 4) = p by omega]

theorem packCmd_inj {op op' : BitVec 8} {rid rid' : BitVec 4} {zero zero' : BitVec 12} {len len' : BitVec 8} :
    packCmd op rid zero len = packCmd op' rid' zero' len' ↔ op = op' ∧ rid = rid' ∧ zero = zero' ∧ len = len' := by
  constructor
  · intro h
    exact ⟨by simpa using congrArg opField h, by simpa using congrArg ridField h,
      by simpa using congrArg zeroField h, by simpa using congrArg lenField h⟩
  · rintro ⟨rfl, rfl, rfl, rfl⟩
    rfl

/-- A mask acts on each field by itself. -/
theorem packCmd_and (op op' : BitVec 8) (rid rid' : BitVec 4) (zero zero' : BitVec 12) (len len' : BitVec 8) :
    packCmd op rid zero len &&& packCmd op' rid' zero' len' =
      packCmd (op &&& op') (rid &&& rid') (zero &&& zero') (len &&& len') := by
  apply BitVec.eq_of_getLsbD_eq
  intro p hp
  simp only [packCmd, BitVec.getLsbD_and, BitVec.getLsbD_append]
  split
  · rfl
  · split
    · rfl
    · split <;> rfl

/-- The opcode map reads each code as its opcode. -/
@[simp] theorem Opcode.ofCode_code (o : Opcode) : Opcode.ofCode o.code = some o := by
  cases o <;> decide

theorem Opcode.mem_all (o : Opcode) : o ∈ Opcode.all := by
  cases o <;> decide

/-- The opcode map answers an opcode only for its own code. -/
theorem Opcode.code_of_ofCode {c : BitVec 8} {o : Opcode} (h : Opcode.ofCode c = some o) : o.code = c := by
  simpa using List.find?_some h

theorem Opcode.code_injective {o o' : Opcode} (h : o.code = o'.code) : o = o' := by
  have hc := Opcode.ofCode_code o
  rw [h, Opcode.ofCode_code] at hc
  exact (Option.some.inj hc).symm

/-- Everything the decoder can answer when it accepts. -/
theorem decode_ok {c : Command} {i : Instr} (h : decode c = .ok i) :
    ∃ o : Opcode, opField c.cmd = o.code ∧ zeroField c.cmd = 0 ∧
      (o.format.usesRid = true ∨ ridField c.cmd = 0) ∧
      (o.format.usesLen = true ∨ lenField c.cmd = 0) ∧ i = assemble o c := by
  unfold decode at h
  cases ho : Opcode.ofCode (opField c.cmd) with
  | none => simp [ho] at h
  | some o =>
    simp only [ho] at h
    split at h
    · cases h
    · next hz =>
      split at h
      · cases h
      · next hr =>
        split at h
        · cases h
        · next hl =>
          refine ⟨o, (Opcode.code_of_ofCode ho).symm, not_not.mp hz, ?_, ?_, (Except.ok.inj h).symm⟩
          · by_cases hu : o.format.usesRid = true
            · exact .inl hu
            · exact .inr (not_not.mp fun hne => hr ⟨Bool.eq_false_iff.mpr hu, hne⟩)
          · by_cases hu : o.format.usesLen = true
            · exact .inl hu
            · exact .inr (not_not.mp fun hne => hl ⟨Bool.eq_false_iff.mpr hu, hne⟩)

/-- The decoder accepts exactly such words. -/
theorem decode_of_fields {c : Command} {o : Opcode} (ho : opField c.cmd = o.code) (hz : zeroField c.cmd = 0)
    (hr : o.format.usesRid = true ∨ ridField c.cmd = 0)
    (hl : o.format.usesLen = true ∨ lenField c.cmd = 0) : decode c = .ok (assemble o c) := by
  have hr' : ¬(o.format.usesRid = false ∧ ridField c.cmd ≠ 0) := by
    rintro ⟨h, hne⟩
    rcases hr with h' | h'
    · simp [h] at h'
    · exact hne h'
  have hl' : ¬(o.format.usesLen = false ∧ lenField c.cmd ≠ 0) := by
    rintro ⟨h, hne⟩
    rcases hl with h' | h'
    · simp [h] at h'
    · exact hne h'
  simp only [decode, ho, Opcode.ofCode_code, hz, ne_eq, not_true_eq_false, if_false]
  rw [if_neg hr', if_neg hl']

@[simp] theorem opcode_assemble (o : Opcode) (c : Command) : (assemble o c).opcode = o := by
  cases o <;> rfl

end Sys2Proof
end

