-- ==== Sys2Proof/Laws/Memory.lean ====
section
/-! SUPPORT. The laws of the bit store: read after write, the canonical form kept by every operation, and the bit
and word views over the bytes (R30, R31). -/

namespace Sys2Proof.Machine

/-! ### Read after write -/

theorem Memory.read_erase (m : Memory) (a b : Nat) :
    Memory.read (m.erase a) b = if b = a then 0 else m.read b := by
  induction m with
  | nil => simp [Memory.erase, Memory.read]
  | cons c m ih =>
    obtain ⟨x, v⟩ := c
    simp only [Memory.erase, List.filter_cons] at ih ⊢
    by_cases hx : x = a
    · subst hx
      simp only [bne_self_eq_false, Bool.false_eq_true, if_false, ih, Memory.read]
      by_cases hb : b = x
      · simp [hb]
      · simp [hb, Ne.symm hb]
    · simp only [bne_iff_ne, ne_eq, hx, not_false_eq_true, if_true, Memory.read, ih]
      by_cases hb : b = a
      · simp [hb, hx]
      · simp [hb]

theorem Memory.read_insert (m : Memory) (a : Nat) (v : Byte) (b : Nat) (h : ∀ c ∈ m, c.1 ≠ a) :
    Memory.read (m.insert a v) b = if b = a then v else m.read b := by
  induction m with
  | nil => simp [Memory.insert, Memory.read, eq_comm]
  | cons c m ih =>
    obtain ⟨x, w⟩ := c
    have hx : x ≠ a := h (x, w) (by simp)
    have ih := ih fun c hc => h c (List.mem_cons_of_mem _ hc)
    simp only [Memory.insert]
    split
    · simp [Memory.read, eq_comm]
    · simp only [Memory.read, ih]
      by_cases hb : b = a
      · simp [hb, hx]
      · simp [hb]

theorem Memory.erase_ne (m : Memory) (a : Nat) : ∀ c ∈ m.erase a, c.1 ≠ a := by
  intro c hc
  simpa using (List.mem_filter.mp hc).2

/-- A byte written reads back, and every other byte reads as before. -/
theorem Memory.read_write (m : Memory) (a : Nat) (v : Byte) (b : Nat) :
    Memory.read (m.write a v) b = if b = a then v else m.read b := by
  unfold Memory.write
  split
  · next hv => rw [Memory.read_erase, hv]
  · rw [Memory.read_insert _ _ _ _ (m.erase_ne a), Memory.read_erase]
    by_cases hb : b = a <;> simp [hb]

/-! ### The canonical form -/

/-- The canonical form, said of the list as a whole. -/
theorem Memory.wf_iff (m : Memory) :
    Memory.wf m = true ↔ m.Pairwise (fun c d => c.1 < d.1) ∧ ∀ c ∈ m, c.2 ≠ 0 := by
  induction m with
  | nil => simp [Memory.wf]
  | cons c m ih =>
    obtain ⟨a, v⟩ := c
    cases m with
    | nil => simp [Memory.wf]
    | cons d m =>
      obtain ⟨b, w⟩ := d
      simp only [Memory.wf, Bool.and_eq_true, bne_iff_ne, decide_eq_true_eq, ih, List.pairwise_cons,
        List.mem_cons, forall_eq_or_imp]
      constructor
      · rintro ⟨⟨hv, hab⟩, ⟨hb, hm⟩, hw, hn⟩
        exact ⟨⟨⟨hab, fun c hc => lt_trans hab (hb c hc)⟩, hb, hm⟩, hv, hw, hn⟩
      · rintro ⟨⟨⟨hab, _⟩, hb, hm⟩, hv, hw, hn⟩
        exact ⟨⟨hv, hab⟩, ⟨hb, hm⟩, hw, hn⟩

theorem Memory.mem_insert {m : Memory} {a : Nat} {v : Byte} {c : Host.Cell} :
    c ∈ Memory.insert m a v ↔ c = (a, v) ∨ c ∈ m := by
  induction m with
  | nil => simp [Memory.insert]
  | cons d m ih =>
    obtain ⟨b, w⟩ := d
    simp only [Memory.insert]
    split
    · simp
    · simp only [List.mem_cons, ih]
      tauto

theorem Memory.wf_erase {m : Memory} (h : Memory.wf m = true) (a : Nat) :
    Memory.wf (m.erase a) = true := by
  rw [Memory.wf_iff] at h ⊢
  exact ⟨h.1.filter _, fun c hc => h.2 c (List.mem_of_mem_filter hc)⟩

theorem Memory.pairwise_insert {m : Memory} (h : m.Pairwise (fun c d => c.1 < d.1)) (a : Nat) (v : Byte)
    (hn : ∀ c ∈ m, c.1 ≠ a) : (Memory.insert m a v).Pairwise (fun c d => c.1 < d.1) := by
  induction m with
  | nil => simp [Memory.insert]
  | cons d m ih =>
    obtain ⟨b, w⟩ := d
    have hb : b ≠ a := hn (b, w) (by simp)
    obtain ⟨hlt, hm⟩ := List.pairwise_cons.mp h
    simp only [Memory.insert]
    split
    · next hab =>
      refine List.pairwise_cons.mpr ⟨?_, h⟩
      intro c hc
      rcases List.mem_cons.mp hc with rfl | hc
      · exact hab
      · exact lt_trans hab (hlt c hc)
    · next hab =>
      refine List.pairwise_cons.mpr ⟨?_, ih hm fun c hc => hn c (List.mem_cons_of_mem _ hc)⟩
      intro c hc
      rcases Memory.mem_insert.mp hc with rfl | hc
      · exact lt_of_le_of_ne (Nat.le_of_not_lt hab) hb
      · exact hlt c hc

/-- A write keeps the canonical form. -/
theorem Memory.wf_write {m : Memory} (h : Memory.wf m = true) (a : Nat) (v : Byte) :
    Memory.wf (m.write a v) = true := by
  unfold Memory.write
  split
  · exact Memory.wf_erase h a
  · next hv =>
    have he := (Memory.wf_iff _).mp (Memory.wf_erase h a)
    refine (Memory.wf_iff _).mpr ⟨Memory.pairwise_insert he.1 a v (m.erase_ne a), ?_⟩
    intro c hc
    rcases Memory.mem_insert.mp hc with rfl | hc
    · exact hv
    · exact he.2 c hc

theorem Memory.wf_writeBytes {m : Memory} (h : Memory.wf m = true) (w : Nat) (v : Word) (n : Nat) :
    Memory.wf (m.writeBytes w v n) = true := by
  induction n with
  | zero => exact h
  | succ n ih => exact Memory.wf_write ih _ _

/-- Writing a word keeps the canonical form. -/
theorem Memory.wf_writeWord {m : Memory} (h : Memory.wf m = true) (w : Nat) (v : Word) :
    Memory.wf (m.writeWord w v) = true :=
  Memory.wf_writeBytes h w v 8

/-- A canonical memory lists an address exactly when it reads as nonzero. -/
theorem Memory.read_of_mem {m : Memory} (h : Memory.wf m = true) {a : Nat} {v : Byte} (hc : (a, v) ∈ m) :
    Memory.read m a = v := by
  rw [Memory.wf_iff] at h
  obtain ⟨hp, -⟩ := h
  induction m with
  | nil => simp at hc
  | cons d m ih =>
    obtain ⟨b, w⟩ := d
    obtain ⟨hlt, hm⟩ := List.pairwise_cons.mp hp
    rcases List.mem_cons.mp hc with hd | hc
    · cases hd; simp [Memory.read]
    · have : b < a := hlt (a, v) hc
      simp only [Memory.read, if_neg (Nat.ne_of_lt this)]
      exact ih hc hm

theorem Memory.read_of_not_mem {m : Memory} {a : Nat} (h : ∀ c ∈ m, c.1 ≠ a) : Memory.read m a = 0 := by
  induction m with
  | nil => rfl
  | cons d m ih =>
    obtain ⟨b, w⟩ := d
    simp only [Memory.read, if_neg (h (b, w) (by simp))]
    exact ih fun c hc => h c (List.mem_cons_of_mem _ hc)

/-- Equal contents are equal data: two canonical memories that read alike are the same list. -/
theorem Memory.ext_of_wf {m m' : Memory} (h : Memory.wf m = true) (h' : Memory.wf m' = true)
    (hr : ∀ a, m.read a = m'.read a) : m = m' := by
  have sub : ∀ {x y : Memory}, Memory.wf x = true → Memory.wf y = true → (∀ a, x.read a = y.read a) →
      ∀ c ∈ x, c ∈ y := by
    intro x y hx hy hxy c hc
    obtain ⟨a, v⟩ := c
    have hv : v ≠ 0 := ((Memory.wf_iff x).mp hx).2 (a, v) hc
    have hya : y.read a = v := (hxy a).symm.trans (Memory.read_of_mem hx hc)
    by_contra hne
    refine hv (hya.symm.trans ?_)
    refine Memory.read_of_not_mem fun d hd hda => hne ?_
    obtain ⟨b, w⟩ := d
    simp only at hda
    subst hda
    have hw : w = v := (Memory.read_of_mem hy hd).symm.trans hya
    exact hw ▸ hd
  have hp := ((Memory.wf_iff m).mp h).1
  have hp' := ((Memory.wf_iff m').mp h').1
  have perm : m.Perm m' := by
    refine (List.perm_ext_iff_of_nodup ?_ ?_).mpr fun c => ⟨sub h h' hr c, sub h' h (fun a => (hr a).symm) c⟩
    · exact hp.imp fun hlt he => by simp [he] at hlt
    · exact hp'.imp fun hlt he => by simp [he] at hlt
  exact perm.eq_of_pairwise (fun a b _ _ hab hba => absurd hab (Nat.lt_asymm hba)) hp hp'

/-! ### Words over bytes -/

theorem Memory.read_writeBytes (m : Memory) (w : Nat) (v : Word) (n a : Nat) :
    Memory.read (m.writeBytes w v n) a =
      if 8 * w ≤ a ∧ a < 8 * w + n then wordByte v (a - 8 * w) else m.read a := by
  induction n with
  | zero => simp [Memory.writeBytes, show ¬(8 * w ≤ a ∧ a < 8 * w) by omega]
  | succ n ih =>
    simp only [Memory.writeBytes, Memory.read_write, ih]
    by_cases ha : a = 8 * w + n
    · simp [ha]
    · by_cases hb : 8 * w ≤ a ∧ a < 8 * w + n
      · rw [if_neg ha, if_pos hb, if_pos (by omega)]
      · rw [if_neg ha, if_neg hb, if_neg (by omega)]

/-- A word written changes exactly its eight bytes. -/
theorem Memory.read_writeWord (m : Memory) (w : Nat) (v : Word) (a : Nat) :
    Memory.read (m.writeWord w v) a = if a / 8 = w then wordByte v (a % 8) else m.read a := by
  simp only [Memory.writeWord, Memory.read_writeBytes]
  by_cases h : a / 8 = w
  · rw [if_pos (by omega), if_pos h, show a - 8 * w = a % 8 by omega]
  · rw [if_neg (by omega), if_neg h]

/-- Value position `p` of a store word lies in byte `7 - p / 8` of its eight. -/
theorem Memory.getLsbD_word (m : Memory) (w p : Nat) (hp : p < 64) :
    (m.word w).getLsbD p = (m.read (8 * w + (7 - p / 8))).getLsbD (p % 8) := by
  have h8 : p / 8 < 8 := by omega
  have hq : p = 8 * (p / 8) + p % 8 := by omega
  have hr : p % 8 < 8 := Nat.mod_lt _ (by omega)
  generalize p / 8 = q at *
  generalize p % 8 = r at *
  subst hq
  unfold Memory.word
  interval_cases q <;> simp only [BitVec.getLsbD_append] <;> simp <;>
    (repeat (first | rw [if_neg (by omega)] | rw [if_pos (by omega)])) <;> congr 1 <;> omega

/-- Bitmap bit `i` lies in byte `i / 8`, most significant bit first (R31). -/
theorem Memory.bit_eq_read (m : Memory) (i : Nat) :
    m.bit i = (m.read (i / 8)).getLsbD (7 - i % 8) := by
  rw [Memory.bit, Memory.getLsbD_word _ _ _ (by omega)]
  congr 2 <;> omega

theorem getLsbD_wordByte (v : Word) (k p : Nat) (hp : p < 8) :
    (wordByte v k).getLsbD p = v.getLsbD (56 - 8 * k + p) := by
  simp [wordByte, hp]

/-- A word written, seen bit by bit. -/
theorem Memory.bit_writeWord (m : Memory) (w : Nat) (v : Word) (i : Nat) :
    Memory.bit (m.writeWord w v) i = if i / 64 = w then v.getLsbD (63 - i % 64) else m.bit i := by
  rw [Memory.bit_eq_read, Memory.read_writeWord, show i / 8 / 8 = i / 64 by omega]
  split
  · rw [getLsbD_wordByte _ _ _ (by omega)]
    congr 1
    omega
  · rw [← Memory.bit_eq_read]

/-- A word written reads back, and every other word reads as before. -/
theorem Memory.word_writeWord (m : Memory) (w : Nat) (v : Word) (u : Nat) :
    Memory.word (m.writeWord w v) u = if u = w then v else m.word u := by
  have key : ∀ (x : Memory) (p : Nat), p < 64 → (x.word u).getLsbD p = x.bit (64 * u + (63 - p)) := by
    intro x p hp
    rw [Memory.bit]
    congr 2 <;> omega
  apply BitVec.eq_of_getLsbD_eq
  intro p hp
  rw [key _ p hp, Memory.bit_writeWord, show (64 * u + (63 - p)) / 64 = u by omega,
    show 63 - (64 * u + (63 - p)) % 64 = p by omega]
  split
  · rfl
  · rw [key _ p hp]

@[simp] theorem Memory.read_nil (a : Nat) : Memory.read [] a = 0 := rfl

@[simp] theorem Memory.bit_nil (i : Nat) : Memory.bit [] i = false := by
  simp [Memory.bit_eq_read]

@[simp] theorem Memory.word_nil (w : Nat) : Memory.word [] w = 0 := by
  apply BitVec.eq_of_getLsbD_eq
  intro p hp
  rw [Memory.getLsbD_word _ _ _ hp]
  simp

end Sys2Proof.Machine
end

