-- ==== Sys2Proof/Laws/Extract.lean ====
section
/-! SUPPORT. What the extraction algorithm and `MemRead` say bit by bit, and the cases of `get` (R71, R72, R7). -/

namespace Sys2Proof.Machine

/-! ### `MemRead` -/

@[simp] theorem Memory.memRead_zero (m : Memory) (i : Nat) : m.memRead i 0 = 0 := rfl

/-- One more bit at the low end. -/
theorem Memory.memRead_succ (m : Memory) (i n : Nat) :
    m.memRead i (n + 1) = 2 * m.memRead i n + (m.bit (i + n)).toNat := by
  have shift : ∀ k ∈ List.range n,
      (m.bit (i + k)).toNat * 2 ^ (n + 1 - 1 - k) = 2 * ((m.bit (i + k)).toNat * 2 ^ (n - 1 - k)) := by
    intro k hk
    have hk : k < n := List.mem_range.mp hk
    rw [show n + 1 - 1 - k = (n - 1 - k) + 1 by omega, Nat.pow_succ]
    ring
  unfold Memory.memRead
  rw [List.range_succ, List.map_append, List.sum_append, List.map_congr_left shift, List.sum_map_mul_left]
  simp

theorem Memory.memRead_lt (m : Memory) (i n : Nat) : m.memRead i n < 2 ^ n := by
  induction n with
  | zero => simp
  | succ n ih =>
    rw [Memory.memRead_succ, Nat.pow_succ]
    have := Bool.toNat_le (m.bit (i + n))
    omega

/-- The bit at `i` is the most significant of the `n`, the bit at `i + n - 1` the least. -/
theorem Memory.testBit_memRead (m : Memory) (i n k : Nat) :
    (m.memRead i n).testBit k = (decide (k < n) && m.bit (i + (n - 1 - k))) := by
  induction n generalizing k with
  | zero => simp
  | succ n ih =>
    rw [Memory.memRead_succ]
    cases k with
    | zero =>
      rw [Nat.testBit_zero]
      cases hb : m.bit (i + n) <;> simp [hb]
    | succ k =>
      have hdiv : (2 * m.memRead i n + (m.bit (i + n)).toNat) / 2 = m.memRead i n := by
        have := Bool.toNat_le (m.bit (i + n))
        omega
      rw [Nat.testBit_succ, hdiv, ih, show n + 1 - 1 - (k + 1) = n - 1 - k by omega]
      simp

/-! ### The extraction algorithm -/

theorem getLsbD_allOnes_shift (length p : Nat) (hl : length ≤ 64) :
    (allOnes >>> (64 - length)).getLsbD p = decide (p < length) := by
  rw [BitVec.getLsbD_ushiftRight, show allOnes = BitVec.allOnes 64 from rfl, BitVec.getLsbD_allOnes]
  simp only [decide_eq_decide]
  omega

theorem Memory.getLsbD_word_eq_bit (m : Memory) (w p : Nat) (hp : p < 64) :
    (m.word w).getLsbD p = m.bit (64 * w + (63 - p)) := by
  rw [Memory.bit]
  congr 2 <;> omega

/-- Value position `p` of an extracted Block. -/
theorem getLsbD_extract (m : Memory) (index length p : Nat) (h1 : 1 ≤ length) (h64 : length ≤ 64) :
    (extract m index length).getLsbD p = (decide (p < length) && m.bit (index + (length - 1 - p))) := by
  simp only [extract, BitVec.getLsbD_and, getLsbD_allOnes_shift _ _ h64]
  by_cases hp : p < length
  · simp only [hp, decide_true, Bool.and_true, Bool.true_and]
    split
    · rw [BitVec.getLsbD_ushiftRight, Memory.getLsbD_word_eq_bit _ _ _ (by omega)]
      congr 1
      omega
    · next hlast =>
      have hov : index % 64 + length - 1 - 64 + 1 < 64 := by omega
      rw [BitVec.getLsbD_or, BitVec.getLsbD_shiftLeft, BitVec.getLsbD_ushiftRight]
      by_cases hq : p < index % 64 + length - 1 - 64 + 1
      · rw [Memory.getLsbD_word_eq_bit _ (index / 64 + 1) _ (by omega)]
        simp only [hq, decide_true, Bool.not_true, Bool.and_false, Bool.false_and, Bool.false_or]
        congr 1
        omega
      · rw [Memory.getLsbD_word_eq_bit _ (index / 64) _ (by omega),
          BitVec.getLsbD_of_ge (m.word (index / 64 + 1)) _ (by omega)]
        simp only [show p < 64 by omega, hq, decide_true, decide_false, Bool.not_false, Bool.and_self,
          Bool.true_and, Bool.or_false]
        congr 1
        omega
  · simp [hp]

/-! ### `get` -/

/-- Everything `get` can answer, with the checks in their order (R71). -/
theorem get_cases (size : Nat) (m : Memory) (index length : Nat) :
    (size ≤ index ∧ get size m index length = .error .indexOutOfRange) ∨
    (index < size ∧ length = 0 ∧ get size m index length = .ok 0) ∨
    (index < size ∧ 64 < length ∧ get size m index length = .error .lengthOutOfRange) ∨
    (index < size ∧ 1 ≤ length ∧ length ≤ 64 ∧ size < index + length ∧
      get size m index length = .error .lengthExceedsRange) ∨
    (1 ≤ length ∧ length ≤ 64 ∧ index + length ≤ size ∧
      get size m index length = .ok (extract m index length)) := by
  unfold get
  by_cases h1 : size ≤ index
  · simp [h1]
  · by_cases h2 : length = 0
    · simp [h1, h2]; omega
    · by_cases h3 : 64 < length
      · simp [h1, h2, h3]; omega
      · by_cases h4 : size ≤ index + length - 1
        · simp [h1, h2, h3, h4]; omega
        · simp [h1, h2, h3, h4]; omega

/-- A success lies within the Bitmap. -/
theorem get_ok_bound {size : Nat} {m : Memory} {index length : Nat} {b : Word}
    (h : get size m index length = .ok b) : index < size ∧ index + length ≤ size ∧ length ≤ 64 := by
  rcases get_cases size m index length with ⟨_, e⟩ | ⟨h1, h2, _⟩ | ⟨_, _, e⟩ | ⟨_, _, _, _, e⟩ | ⟨h1, h2, h3, _⟩
  · rw [e] at h; cases h
  · omega
  · rw [e] at h; cases h
  · rw [e] at h; cases h
  · omega

end Sys2Proof.Machine
end

