-- ==== Sys2Proof/Laws/State.lean ====
section
/-! SUPPORT. One lemma per field per state update, true by `rfl`, so that no later proof unfolds a record update. -/

namespace Sys2Proof.Machine

section respond
variable (st : Status) (d : Word) (s : State)

@[simp] theorem respond_mode : (respond st d s).mode = s.mode := rfl
@[simp] theorem respond_size : (respond st d s).size = s.size := rfl
@[simp] theorem respond_mem : (respond st d s).mem = s.mem := rfl
@[simp] theorem respond_rd : (respond st d s).rd = s.rd := rfl
@[simp] theorem respond_capw : (respond st d s).capw = s.capw := rfl
@[simp] theorem respond_inbox : (respond st d s).inbox = s.inbox := rfl
@[simp] theorem respond_rsps : (respond st d s).rsps = s.rsps ++ [⟨st, d⟩] := rfl
@[simp] theorem respond_reader (r : Nat) : (respond st d s).reader r = s.reader r := rfl

end respond

section raise
variable (st : Status) (s : State)

@[simp] theorem raise_mode : (raise st s).mode = s.mode := rfl
@[simp] theorem raise_size : (raise st s).size = s.size := rfl
@[simp] theorem raise_mem : (raise st s).mem = s.mem := rfl
@[simp] theorem raise_rd : (raise st s).rd = s.rd := rfl
@[simp] theorem raise_capw : (raise st s).capw = s.capw := rfl
@[simp] theorem raise_inbox : (raise st s).inbox = s.inbox := rfl
@[simp] theorem raise_rsps : (raise st s).rsps = s.rsps ++ [⟨st, 0⟩] := rfl
@[simp] theorem raise_reader (r : Nat) : (raise st s).reader r = s.reader r := rfl

end raise

section newBitmap
variable (m : Mode) (n : Nat) (s : State)

@[simp] theorem newBitmap_mode : (newBitmap m n s).mode = m := rfl
@[simp] theorem newBitmap_size : (newBitmap m n s).size = n := rfl
@[simp] theorem newBitmap_mem : (newBitmap m n s).mem = [] := rfl
@[simp] theorem newBitmap_rd : (newBitmap m n s).rd = List.replicate s.nrd Reader.fresh := rfl
@[simp] theorem newBitmap_capw : (newBitmap m n s).capw = s.capw := rfl
@[simp] theorem newBitmap_inbox : (newBitmap m n s).inbox = s.inbox := rfl
@[simp] theorem newBitmap_rsps : (newBitmap m n s).rsps = s.rsps := rfl

end newBitmap

section appends
variable (byte : Byte) (word : Word) (s : State)

@[simp] theorem appendByte_mode : (appendByte byte s).mode = s.mode := rfl
@[simp] theorem appendByte_size : (appendByte byte s).size = s.size + 8 := rfl
@[simp] theorem appendByte_rd : (appendByte byte s).rd = s.rd := rfl
@[simp] theorem appendByte_capw : (appendByte byte s).capw = s.capw := rfl
@[simp] theorem appendByte_inbox : (appendByte byte s).inbox = s.inbox := rfl
@[simp] theorem appendByte_rsps : (appendByte byte s).rsps = s.rsps := rfl
@[simp] theorem appendByte_reader (r : Nat) : (appendByte byte s).reader r = s.reader r := rfl

@[simp] theorem appendWord_mode : (appendWord word s).mode = s.mode := rfl
@[simp] theorem appendWord_size : (appendWord word s).size = s.size + 64 := rfl
@[simp] theorem appendWord_mem :
    (appendWord word s).mem = s.mem.writeWord (s.size / 64) word := rfl
@[simp] theorem appendWord_rd : (appendWord word s).rd = s.rd := rfl
@[simp] theorem appendWord_capw : (appendWord word s).capw = s.capw := rfl
@[simp] theorem appendWord_inbox : (appendWord word s).inbox = s.inbox := rfl
@[simp] theorem appendWord_rsps : (appendWord word s).rsps = s.rsps := rfl
@[simp] theorem appendWord_reader (r : Nat) : (appendWord word s).reader r = s.reader r := rfl

end appends

section setReader
variable (r : Nat) (x : Reader) (s : State)

@[simp] theorem setReader_mode : (setReader r x s).mode = s.mode := rfl
@[simp] theorem setReader_size : (setReader r x s).size = s.size := rfl
@[simp] theorem setReader_mem : (setReader r x s).mem = s.mem := rfl
@[simp] theorem setReader_rd : (setReader r x s).rd = s.rd.set r x := rfl
@[simp] theorem setReader_capw : (setReader r x s).capw = s.capw := rfl
@[simp] theorem setReader_inbox : (setReader r x s).inbox = s.inbox := rfl
@[simp] theorem setReader_rsps : (setReader r x s).rsps = s.rsps := rfl

end setReader

section deliver
variable (s : State)

@[simp] theorem deliver_mode : (deliver s).mode = s.mode := rfl
@[simp] theorem deliver_size : (deliver s).size = s.size := rfl
@[simp] theorem deliver_mem : (deliver s).mem = s.mem := rfl
@[simp] theorem deliver_rd : (deliver s).rd = s.rd := rfl
@[simp] theorem deliver_capw : (deliver s).capw = s.capw := rfl
@[simp] theorem deliver_inbox : (deliver s).inbox = s.inbox := rfl
@[simp] theorem deliver_rsps : (deliver s).rsps = s.rsps.tail := rfl

@[simp] theorem applyReset_mode : (applyReset s).mode = .built := rfl
@[simp] theorem applyReset_size : (applyReset s).size = 0 := rfl
@[simp] theorem applyReset_mem : (applyReset s).mem = [] := rfl
@[simp] theorem applyReset_rd : (applyReset s).rd = List.replicate s.nrd Reader.fresh := rfl
@[simp] theorem applyReset_capw : (applyReset s).capw = s.capw := rfl
@[simp] theorem applyReset_inbox : (applyReset s).inbox = s.inbox := rfl
@[simp] theorem applyReset_rsps : (applyReset s).rsps = [] := rfl

end deliver

/-! ### Reading a reader context -/

theorem reader_of_rd_eq {s t : State} (h : t.rd = s.rd) (r : Nat) : t.reader r = s.reader r := by
  simp only [State.reader, h]

/-- A context file of fresh Readers reads fresh everywhere. -/
theorem reader_of_rd_fresh {t : State} {n : Nat} (h : t.rd = List.replicate n Reader.fresh) (r : Nat) :
    t.reader r = Reader.fresh := by
  simp only [State.reader, h, List.getD_eq_getElem?_getD, List.getElem?_replicate]
  split <;> rfl

/-- The context written reads back, if it exists. -/
theorem setReader_reader_self {r : Nat} (x : Reader) {s : State} (h : r < s.nrd) :
    (setReader r x s).reader r = x := by
  simp [State.reader, List.getD_eq_getElem?_getD, h]

/-- Every other context is as before. -/
theorem setReader_reader_ne {r q : Nat} (x : Reader) (s : State) (h : q ≠ r) :
    (setReader r x s).reader q = s.reader q := by
  simp [State.reader, List.getD_eq_getElem?_getD, List.getElem?_set_ne (Ne.symm h)]

/-- A context after a write: the written one, any other, or one that does not exist. -/
theorem setReader_reader (r q : Nat) (x : Reader) (s : State) :
    (setReader r x s).reader q = if q = r ∧ r < s.nrd then x else s.reader q := by
  by_cases hq : q = r
  · subst hq
    by_cases h : q < s.nrd
    · simp [setReader_reader_self x h, h]
    · simp [State.reader, List.getD_eq_getElem?_getD, h]
  · simp [setReader_reader_ne x s hq, hq]

/-- Writing a context back as it is changes nothing. -/
theorem setReader_same (r : Nat) (s : State) : setReader r (s.reader r) s = s := by
  have h : s.rd.set r (s.reader r) = s.rd := by
    apply List.ext_getElem?
    intro q
    rw [List.getElem?_set]
    split
    · next hq =>
      subst hq
      split
      · next h => simp [State.reader, List.getD_eq_getElem?_getD, h]
      · next h => simp [h]
    · rfl
  simp only [setReader, h]

end Sys2Proof.Machine
end

