-- ==== Sys2Proof/Laws/Ops.lean ====
section
/-! SUPPORT. Everything each shared operation can do, said once (R56, R62, R82). -/

namespace Sys2Proof.Machine

/-! ### The checks -/

theorem requireMode_pos {m : Mode} {s : State} (k : State) (h : s.mode = m) : requireMode m s k = k :=
  if_pos h

theorem requireMode_neg {m : Mode} {s : State} (k : State) (h : s.mode ≠ m) :
    requireMode m s k = raise .badMode s :=
  if_neg h

theorem requireMode_cases (m : Mode) (s k : State) :
    (s.mode = m ∧ requireMode m s k = k) ∨ (s.mode ≠ m ∧ requireMode m s k = raise .badMode s) := by
  by_cases h : s.mode = m
  · exact .inl ⟨h, if_pos h⟩
  · exact .inr ⟨h, if_neg h⟩

theorem requireReader_pos {r : Nat} {s : State} (k : State) (hr : r < s.nrd) (hm : s.mode = .built) :
    requireReader r s k = k := by
  rw [requireReader, if_neg (Nat.not_le.mpr hr), requireMode_pos k hm]

theorem requireReader_bad {r : Nat} {s : State} (k : State) (hr : s.nrd ≤ r) :
    requireReader r s k = raise .badReader s :=
  if_pos hr

theorem requireReader_mode {r : Nat} {s : State} (k : State) (hr : r < s.nrd) (hm : s.mode ≠ .built) :
    requireReader r s k = raise .badMode s := by
  rw [requireReader, if_neg (Nat.not_le.mpr hr), requireMode_neg k hm]

theorem requireReader_cases (r : Nat) (s k : State) :
    (s.nrd ≤ r ∧ requireReader r s k = raise .badReader s) ∨
    (r < s.nrd ∧ s.mode ≠ .built ∧ requireReader r s k = raise .badMode s) ∨
    (r < s.nrd ∧ s.mode = .built ∧ requireReader r s k = k) := by
  by_cases hr : s.nrd ≤ r
  · exact .inl ⟨hr, requireReader_bad k hr⟩
  · have hr := Nat.lt_of_not_le hr
    by_cases hm : s.mode = .built
    · exact .inr (.inr ⟨hr, hm, requireReader_pos k hr hm⟩)
    · exact .inr (.inl ⟨hr, hm, requireReader_mode k hr hm⟩)

/-! ### Reads -/

/-- The three rows of R80's table: replay, advance, latch. -/
theorem readBits_cases (r n : Nat) (s : State) :
    (∃ e, (s.reader r).err = some e ∧ readBits r n s = raise e.kind.status s) ∨
    (∃ b, (s.reader r).err = none ∧ s.get (s.reader r).pos n = .ok b ∧
      readBits r n s = respond .ok b (setReader r ⟨(s.reader r).pos + n, none⟩ s)) ∨
    (∃ e, (s.reader r).err = none ∧ s.get (s.reader r).pos n = .error e ∧
      readBits r n s = raise e.status (setReader r ⟨(s.reader r).pos, some ⟨e, n⟩⟩ s)) := by
  unfold readBits
  cases he : (s.reader r).err with
  | some e => exact .inl ⟨e, rfl, rfl⟩
  | none =>
    cases hg : s.get (s.reader r).pos n with
    | ok b => exact .inr (.inl ⟨b, rfl, rfl, by simp only [advanceReader, he]⟩)
    | error e => exact .inr (.inr ⟨e, rfl, rfl, by simp only [latchError]⟩)

/-! ### Appends -/

/-- An appended byte, bit by bit: it is ORed into the eight bits at `size`. -/
theorem bit_appendByte (byte : Byte) (s : State) (h : s.size % 8 = 0) (i : Nat) :
    (appendByte byte s).mem.bit i =
      if s.size ≤ i ∧ i < s.size + 8 then s.mem.bit i || byte.getLsbD (7 - (i - s.size)) else s.mem.bit i := by
  show Memory.bit (s.mem.writeWord _ _) i = _
  rw [Memory.bit_writeWord]
  by_cases hw : i / 64 = s.size / 64
  · rw [if_pos hw, BitVec.getLsbD_or, BitVec.getLsbD_shiftLeft, BitVec.getLsbD_setWidth,
      Memory.getLsbD_word_eq_bit _ _ _ (by omega), show 64 * (s.size / 64) + (63 - (63 - i % 64)) = i by omega]
    by_cases hi : s.size ≤ i ∧ i < s.size + 8
    · rw [if_pos hi]
      simp only [show 63 - i % 64 < 64 by omega, show ¬(63 - i % 64 < 56 - s.size % 64) by omega,
        show 63 - i % 64 - (56 - s.size % 64) < 64 by omega, decide_true, decide_false, Bool.not_false,
        Bool.true_and]
      congr 2
      omega
    · rw [if_neg hi]
      by_cases hlow : 63 - i % 64 < 56 - s.size % 64
      · simp [hlow]
      · rw [BitVec.getLsbD_of_ge byte _ (by omega)]
        simp
  · rw [if_neg hw, if_neg (by omega)]

/-- An appended byte, byte by byte: the byte at `size / 8` is ORed, every other byte stays. -/
theorem read_appendByte (byte : Byte) (s : State) (h : s.size % 8 = 0) (a : Nat) :
    (appendByte byte s).mem.read a =
      if a = s.size / 8 then s.mem.read a ||| byte else s.mem.read a := by
  have key : ∀ (m : Memory) (p : Nat), p < 8 → (m.read a).getLsbD p = m.bit (8 * a + (7 - p)) := by
    intro m p hp
    rw [Memory.bit_eq_read]
    congr 2 <;> omega
  apply BitVec.eq_of_getLsbD_eq
  intro p hp
  rw [key _ p hp, bit_appendByte byte s h]
  by_cases ha : a = s.size / 8
  · rw [if_pos (by omega), if_pos ha, BitVec.getLsbD_or, key _ p hp]
    congr 2
    omega
  · rw [if_neg (by omega), if_neg ha, key _ p hp]

/-- An appended word, bit by bit, at a word boundary. -/
theorem bit_appendWord (word : Word) (s : State) (h : s.size % 64 = 0) (i : Nat) :
    (appendWord word s).mem.bit i =
      if s.size ≤ i ∧ i < s.size + 64 then word.getLsbD (63 - (i - s.size)) else s.mem.bit i := by
  rw [appendWord_mem, Memory.bit_writeWord]
  by_cases hw : i / 64 = s.size / 64
  · rw [if_pos hw, if_pos (by omega)]
    congr 1
    omega
  · rw [if_neg hw, if_neg (by omega)]

/-- The canonical form is kept by both appends. -/
theorem wf_appendByte (byte : Byte) {s : State} (h : Memory.wf s.mem = true) :
    Memory.wf (appendByte byte s).mem = true :=
  Memory.wf_writeWord h _ _

theorem wf_appendWord (word : Word) {s : State} (h : Memory.wf s.mem = true) :
    Memory.wf (appendWord word s).mem = true :=
  Memory.wf_writeWord h _ _

end Sys2Proof.Machine
end

