-- ==== Sys2Proof/Laws/Exec.lean ====
section
/-! SUPPORT. Everything a command can do, said once: `exec` answers a next state, and it is one of the effects below
(R56, R61 to R65, R75, R76, R81 to R88). -/

namespace Sys2Proof.Machine

/-- The effects a command can have, with the circumstances of each. -/
inductive Effect (i : Instr) (s : State) : State → Prop
  /-- Step 2 of R56. -/
  | badReader (r : Nat) (hr : i.reader? = some r) (h : s.nrd ≤ r) : Effect i s (raise .badReader s)
  /-- Step 3 of R56. -/
  | badMode (hr : ∀ r, i.reader? = some r → r < s.nrd) (h : i.acceptedIn s.mode = false) :
      Effect i s (raise .badMode s)
  /-- R63. -/
  | misaligned (w : Word) (hi : i = .bmPushw w) (hm : s.mode = .loading) (h : s.size % 64 ≠ 0) :
      Effect i s (raise .misalignedPush s)
  /-- R62, R63, R65: a push or a fill that does not fit. -/
  | capacity (hi : i.pushes = true ∧ s.mode = .loading ∨ ∃ n, i = .bmZfill n ∧ s.capBits < n) :
      Effect i s (raise .capacity s)
  /-- R75: a `BM_GET` that fails. -/
  | getFailed (index len : Nat) (e : ErrKind) (hi : i = .bmGet index len) (hm : s.mode = .built)
      (h : s.get index len = .error e) : Effect i s (raise e.status s)
  /-- R75, R76, R85 to R88: a query that succeeds. -/
  | answered (d : Word) (hm : s.mode = .built)
      (hi : i.opcode ∈ [.bmGet, .bmSize, .rdSize, .rdUnread, .rdHasunread, .rdStat]) :
      Effect i s (respond .ok d s)
  /-- R82: the replay of a latched error. -/
  | replayed (r n : Nat) (e : Latched) (hi : i.read? = some (r, n)) (hr : r < s.nrd) (hm : s.mode = .built)
      (h : (s.reader r).err = some e) : Effect i s (raise e.kind.status s)
  /-- R61, R65. -/
  | started (m : Mode) (n : Nat)
      (hi : i = .bmNew ∧ m = .loading ∧ n = 0 ∨ i = .bmZfill n ∧ m = .built ∧ n ≤ s.capBits) :
      Effect i s (respond .ok 0 (newBitmap m n s))
  /-- R62. -/
  | pushedByte (b : Byte) (hi : i = .bmPushb b) (hm : s.mode = .loading) (h : s.size + 8 ≤ s.capBits) :
      Effect i s (respond .ok 0 (appendByte b s))
  /-- R63. -/
  | pushedWord (w : Word) (hi : i = .bmPushw w) (hm : s.mode = .loading) (ha : s.size % 64 = 0)
      (h : s.size + 64 ≤ s.capBits) : Effect i s (respond .ok 0 (appendWord w s))
  /-- R64. -/
  | committed (hi : i = .bmCommit) (hm : s.mode = .loading) :
      Effect i s (respond .ok 0 { s with mode := .built })
  /-- R81. -/
  | inited (r : Nat) (hi : i = .rdInit r) (hr : r < s.nrd) (hm : s.mode = .built) :
      Effect i s (respond .ok 0 (setReader r Reader.fresh s))
  /-- R82: a read that succeeds. -/
  | advanced (r n : Nat) (b : Word) (hi : i.read? = some (r, n)) (hr : r < s.nrd) (hm : s.mode = .built)
      (he : (s.reader r).err = none) (h : s.get (s.reader r).pos n = .ok b) :
      Effect i s (respond .ok b (setReader r ⟨(s.reader r).pos + n, none⟩ s))
  /-- R82, R104: the first read that fails. -/
  | latched (r n : Nat) (e : ErrKind) (hi : i.read? = some (r, n)) (hr : r < s.nrd) (hm : s.mode = .built)
      (he : (s.reader r).err = none) (h : s.get (s.reader r).pos n = .error e) :
      Effect i s (raise e.status (setReader r ⟨(s.reader r).pos, some ⟨e, n⟩⟩ s))

section
variable {i : Instr} {s : State}

/-- A command of the `LOADING` phase: refused by mode, or its own effect. -/
theorem effect_of_requireLoading {k : State} (hr : i.reader? = none) (ha : ∀ m, i.acceptedIn m = (m == .loading))
    (hk : s.mode = .loading → Effect i s k) : Effect i s (requireMode .loading s k) := by
  rcases requireMode_cases .loading s k with ⟨hm, e⟩ | ⟨hm, e⟩ <;> rw [e]
  · exact hk hm
  · exact .badMode (by simp [hr]) (by simp [ha, hm])

/-- A query of the Bitmap: refused by mode, or its own effect. -/
theorem effect_of_requireBuilt {k : State} (hr : i.reader? = none) (ha : ∀ m, i.acceptedIn m = (m == .built))
    (hk : s.mode = .built → Effect i s k) : Effect i s (requireMode .built s k) := by
  rcases requireMode_cases .built s k with ⟨hm, e⟩ | ⟨hm, e⟩ <;> rw [e]
  · exact hk hm
  · exact .badMode (by simp [hr]) (by simp [ha, hm])

/-- A reader command: refused by reader number, refused by mode, or its own effect. -/
theorem effect_of_requireReader {r : Nat} {k : State} (hr : i.reader? = some r)
    (ha : ∀ m, i.acceptedIn m = (m == .built)) (hk : r < s.nrd → s.mode = .built → Effect i s k) :
    Effect i s (requireReader r s k) := by
  rcases requireReader_cases r s k with ⟨h, e⟩ | ⟨h, hm, e⟩ | ⟨h, hm, e⟩ <;> rw [e]
  · exact .badReader r hr h
  · exact .badMode (by simp [hr, h]) (by simp [ha, hm])
  · exact hk h hm

/-- A read command on an existing context in `BUILT`: replay, advance or latch. -/
theorem effect_of_readBits {r n : Nat} (hi : i.read? = some (r, n)) (hr : r < s.nrd) (hm : s.mode = .built) :
    Effect i s (readBits r n s) := by
  rcases readBits_cases r n s with ⟨e, he, h⟩ | ⟨b, he, hg, h⟩ | ⟨e, he, hg, h⟩ <;> rw [h]
  · exact .replayed r n e hi hr hm he
  · exact .advanced r n b hi hr hm he hg
  · exact .latched r n e hi hr hm he hg

end

/-- `exec` always answers a next state, and it is one of the effects. -/
theorem exec_effect (i : Instr) (s : State) : ∃ t, exec i s = .next t ∧ Effect i s t := by
  cases i with
  | bmNew => exact ⟨_, rfl, .started .loading 0 (.inl ⟨rfl, rfl, rfl⟩)⟩
  | bmPushb byte =>
    refine ⟨_, rfl, effect_of_requireLoading rfl (fun _ => rfl) fun hm => ?_⟩
    split
    · exact .capacity (.inl ⟨rfl, hm⟩)
    · next h => exact .pushedByte byte rfl hm (Nat.not_lt.mp h)
  | bmPushw word =>
    refine ⟨_, rfl, effect_of_requireLoading rfl (fun _ => rfl) fun hm => ?_⟩
    split
    · next h => exact .misaligned word rfl hm h
    · next ha =>
      split
      · exact .capacity (.inl ⟨rfl, hm⟩)
      · next h => exact .pushedWord word rfl hm (not_not.mp ha) (Nat.not_lt.mp h)
  | bmCommit => exact ⟨_, rfl, effect_of_requireLoading rfl (fun _ => rfl) fun hm => .committed rfl hm⟩
  | bmZfill nbits =>
    refine ⟨_, rfl, ?_⟩
    split
    · next h => exact .capacity (.inr ⟨nbits, rfl, h⟩)
    · next h => exact .started .built nbits (.inr ⟨rfl, rfl, Nat.not_lt.mp h⟩)
  | bmGet index len =>
    refine ⟨_, rfl, effect_of_requireBuilt rfl (fun _ => rfl) fun hm => ?_⟩
    cases hg : s.get index len with
    | ok b => exact .answered b hm (by simp [Instr.opcode])
    | error e => exact .getFailed index len e rfl hm hg
  | bmSize =>
    exact ⟨_, rfl, effect_of_requireBuilt rfl (fun _ => rfl) fun hm => .answered _ hm (by simp [Instr.opcode])⟩
  | rdInit r => exact ⟨_, rfl, effect_of_requireReader rfl (fun _ => rfl) fun hr hm => .inited r rfl hr hm⟩
  | rdBits r n => exact ⟨_, rfl, effect_of_requireReader rfl (fun _ => rfl) (effect_of_readBits rfl)⟩
  | rdBool r => exact ⟨_, rfl, effect_of_requireReader rfl (fun _ => rfl) (effect_of_readBits rfl)⟩
  | rdByte r => exact ⟨_, rfl, effect_of_requireReader rfl (fun _ => rfl) (effect_of_readBits rfl)⟩
  | rdSize r =>
    exact ⟨_, rfl, effect_of_requireReader rfl (fun _ => rfl) fun _ hm => .answered _ hm (by simp [Instr.opcode])⟩
  | rdUnread r =>
    exact ⟨_, rfl, effect_of_requireReader rfl (fun _ => rfl) fun _ hm => .answered _ hm (by simp [Instr.opcode])⟩
  | rdHasunread r =>
    exact ⟨_, rfl, effect_of_requireReader rfl (fun _ => rfl) fun _ hm => .answered _ hm (by simp [Instr.opcode])⟩
  | rdStat r =>
    exact ⟨_, rfl, effect_of_requireReader rfl (fun _ => rfl) fun _ hm => .answered _ hm (by simp [Instr.opcode])⟩

/-- The inversion of `exec`: what a next state can be. -/
theorem effect_of_exec {i : Instr} {s t : State} (h : exec i s = .next t) : Effect i s t := by
  obtain ⟨u, hu, e⟩ := exec_effect i s
  rw [hu] at h
  cases h
  exact e

end Sys2Proof.Machine
end

