-- ==== Sys2Proof/Laws/PerInstr.lean ====
section
/-! SUPPORT. One lemma per instruction. Family `EncodedFields`: the fields of an instruction's command word carry
its operands, and the fields its format does not use are 0 (R45, R46). -/

namespace Sys2Proof.Laws

/-- The command word of `i` names its opcode; `rid` and `len` are its operands or 0; `zero` is 0. -/
def EncodedFields.Statement (i : Instr) : Prop :=
  i.wellFormed = true →
    opField (encode i).cmd = i.opcode.code ∧ zeroField (encode i).cmd = 0 ∧
    (ridField (encode i).cmd).toNat = i.reader?.getD 0 ∧ (lenField (encode i).cmd).toNat = i.lenOperand ∧
    (i.opcode.format.usesRid = true ∨ ridField (encode i).cmd = 0) ∧
    (i.opcode.format.usesLen = true ∨ lenField (encode i).cmd = 0)

section
variable {i : Instr}

/-- The shared step: what each instruction has to show of its own operands. -/
theorem encodedFields_of_operands (hr : i.wellFormed = true → i.reader?.getD 0 < 16)
    (hl : i.wellFormed = true → i.lenOperand < 256)
    (hu : i.opcode.format.usesRid = true ∨ i.reader?.getD 0 = 0)
    (hv : i.opcode.format.usesLen = true ∨ i.lenOperand = 0) : EncodedFields.Statement i := by
  intro h
  have hr := hr h
  have hl := hl h
  refine ⟨by simp [encode], by simp [encode], ?_, ?_, ?_, ?_⟩
  · simp only [encode, ridField_packCmd, BitVec.toNat_ofNat]
    omega
  · simp only [encode, lenField_packCmd, BitVec.toNat_ofNat]
    omega
  · exact hu.imp id fun h0 => by simp [encode, h0]
  · exact hv.imp id fun h0 => by simp [encode, h0]

end

theorem EncodedFields.bmNew : EncodedFields.Statement .bmNew :=
  encodedFields_of_operands (by decide) (by decide) (.inr rfl) (.inr rfl)

theorem EncodedFields.bmPushb (byte : Byte) : EncodedFields.Statement (.bmPushb byte) :=
  encodedFields_of_operands (by simp [Instr.reader?]) (by simp [Instr.lenOperand]) (.inr rfl) (.inr rfl)

theorem EncodedFields.bmPushw (word : Word) : EncodedFields.Statement (.bmPushw word) :=
  encodedFields_of_operands (by simp [Instr.reader?]) (by simp [Instr.lenOperand]) (.inr rfl) (.inr rfl)

theorem EncodedFields.bmCommit : EncodedFields.Statement .bmCommit :=
  encodedFields_of_operands (by decide) (by decide) (.inr rfl) (.inr rfl)

theorem EncodedFields.bmZfill (nbits : Nat) : EncodedFields.Statement (.bmZfill nbits) :=
  encodedFields_of_operands (by simp [Instr.reader?]) (by simp [Instr.lenOperand]) (.inr rfl) (.inr rfl)

theorem EncodedFields.bmGet (index len : Nat) : EncodedFields.Statement (.bmGet index len) :=
  encodedFields_of_operands (by simp [Instr.reader?])
    (by simp [Instr.wellFormed, lenFits, Instr.lenOperand]) (.inr rfl) (.inl rfl)

theorem EncodedFields.bmSize : EncodedFields.Statement .bmSize :=
  encodedFields_of_operands (by decide) (by decide) (.inr rfl) (.inr rfl)

theorem EncodedFields.rdInit (rid : Nat) : EncodedFields.Statement (.rdInit rid) :=
  encodedFields_of_operands (by simp [Instr.wellFormed, ridFits, Instr.reader?])
    (by simp [Instr.lenOperand]) (.inl rfl) (.inr rfl)

theorem EncodedFields.rdBits (rid n : Nat) : EncodedFields.Statement (.rdBits rid n) :=
  encodedFields_of_operands (by simp +contextual [Instr.wellFormed, ridFits, Instr.reader?])
    (by simp [Instr.wellFormed, lenFits, Instr.lenOperand]) (.inl rfl) (.inl rfl)

theorem EncodedFields.rdBool (rid : Nat) : EncodedFields.Statement (.rdBool rid) :=
  encodedFields_of_operands (by simp [Instr.wellFormed, ridFits, Instr.reader?])
    (by simp [Instr.lenOperand]) (.inl rfl) (.inr rfl)

theorem EncodedFields.rdByte (rid : Nat) : EncodedFields.Statement (.rdByte rid) :=
  encodedFields_of_operands (by simp [Instr.wellFormed, ridFits, Instr.reader?])
    (by simp [Instr.lenOperand]) (.inl rfl) (.inr rfl)

theorem EncodedFields.rdSize (rid : Nat) : EncodedFields.Statement (.rdSize rid) :=
  encodedFields_of_operands (by simp [Instr.wellFormed, ridFits, Instr.reader?])
    (by simp [Instr.lenOperand]) (.inl rfl) (.inr rfl)

theorem EncodedFields.rdUnread (rid : Nat) : EncodedFields.Statement (.rdUnread rid) :=
  encodedFields_of_operands (by simp [Instr.wellFormed, ridFits, Instr.reader?])
    (by simp [Instr.lenOperand]) (.inl rfl) (.inr rfl)

theorem EncodedFields.rdHasunread (rid : Nat) : EncodedFields.Statement (.rdHasunread rid) :=
  encodedFields_of_operands (by simp [Instr.wellFormed, ridFits, Instr.reader?])
    (by simp [Instr.lenOperand]) (.inl rfl) (.inr rfl)

theorem EncodedFields.rdStat (rid : Nat) : EncodedFields.Statement (.rdStat rid) :=
  encodedFields_of_operands (by simp [Instr.wellFormed, ridFits, Instr.reader?])
    (by simp [Instr.lenOperand]) (.inl rfl) (.inr rfl)

end Sys2Proof.Laws
end

