-- ==== Sys2Proof/Laws/Step.lean ====
section
/-! SUPPORT. The cases of a step: the host's oldest event, or none (R38, R108, R120). -/

namespace Sys2Proof.Machine

section
variable {s t : State} {rest : List HostEvent}

/-- With no event the state is held. -/
theorem step_idle (h : s.inbox = []) : step s = .next s := by
  simp only [step, nextEvent, h]

theorem step_reset (h : s.inbox = .reset :: rest) : step s = .next (applyReset { s with inbox := rest }) := by
  simp only [step, nextEvent, h]

theorem step_takeResponse (h : s.inbox = .takeResponse :: rest) :
    step s = .next (deliver { s with inbox := rest }) := by
  simp only [step, nextEvent, h]

theorem step_illegal {c : Command} {e : Illegal} (h : s.inbox = .command c :: rest) (hd : decode c = .error e) :
    step s = .next (illegalCommand { s with inbox := rest }) := by
  simp only [step, nextEvent, h, hd]

theorem step_legal {c : Command} {i : Instr} (h : s.inbox = .command c :: rest) (hd : decode c = .ok i) :
    step s = exec i { s with inbox := rest } := by
  simp only [step, nextEvent, h, hd]

/-- The inversion of `step`: what a next state can be. -/
theorem step_cases (h : step s = .next t) :
    (s.inbox = [] ∧ t = s) ∨
    ∃ e rest, s.inbox = e :: rest ∧
      (e = .reset ∧ t = applyReset { s with inbox := rest } ∨
       e = .takeResponse ∧ t = deliver { s with inbox := rest } ∨
       (∃ c x, e = .command c ∧ decode c = .error x ∧ t = illegalCommand { s with inbox := rest }) ∨
       ∃ c i, e = .command c ∧ decode c = .ok i ∧ Effect i { s with inbox := rest } t) := by
  cases hin : s.inbox with
  | nil =>
    rw [step_idle hin] at h
    cases h
    exact .inl ⟨rfl, rfl⟩
  | cons e rest =>
    refine .inr ⟨e, rest, rfl, ?_⟩
    cases e with
    | reset =>
      rw [step_reset hin] at h
      cases h
      exact .inl ⟨rfl, rfl⟩
    | takeResponse =>
      rw [step_takeResponse hin] at h
      cases h
      exact .inr (.inl ⟨rfl, rfl⟩)
    | command c =>
      refine .inr (.inr ?_)
      cases hd : decode c with
      | error x =>
        rw [step_illegal hin hd] at h
        cases h
        exact .inl ⟨c, x, rfl, hd, rfl⟩
      | ok i =>
        rw [step_legal hin hd] at h
        exact .inr ⟨c, i, rfl, hd, effect_of_exec h⟩

end

end Sys2Proof.Machine
end

