-- ==== Sys2Proof/Laws/Run.lean ====
section
/-! SUPPORT. Runs of several commands, one command at a time, and what every command does at the port (R38, R48). -/

namespace Sys2Proof.Machine

/-- Every effect adds one response, and touches neither the host's events nor the parameters. -/
theorem Effect.response {i : Instr} {s t : State} (h : Effect i s t) :
    ∃ x, t.rsps = s.rsps ++ [x] ∧ t.inbox = s.inbox ∧ t.capw = s.capw ∧ t.nrd = s.nrd ∧
      (x.status ≠ .ok → x.data = 0) := by
  cases h <;> simp [State.nrd]

/-- A read command on an existing context in `BUILT` is `readBits` (R82 to R84). -/
theorem exec_read {i : Instr} {r n : Nat} {s : State} (hi : i.read? = some (r, n)) (hm : s.mode = .built)
    (hr : r < s.nrd) : exec i s = .next (readBits r n s) := by
  cases i <;> simp only [Instr.read?, Option.some.injEq, Prod.mk.injEq, reduceCtorEq] at hi
  all_goals
    obtain ⟨rfl, rfl⟩ := hi
    simp only [exec, execRdBits, execRdBool, execRdByte, requireReader_pos _ hr hm]

section
variable {i : Instr} {l : List Instr} {s t : State}

@[simp] theorem execAll_nil : execAll [] s = .next s := rfl

@[simp] theorem transcript_nil : transcript [] s = [] := rfl

theorem execAll_cons (h : exec i s = .next t) : execAll (i :: l) s = execAll l t := by
  simp only [execAll, h]

theorem transcript_cons (h : exec i s = .next t) :
    transcript (i :: l) s = (i, t.rsps.drop s.rsps.length) :: transcript l t := by
  simp only [transcript, h]

theorem fieldsFrom_cons (m : Memory) (pos : Nat) :
    fieldsFrom m pos (i :: l) =
      (i, [⟨.ok, BitVec.ofNat 64 (m.memRead pos (i.read?.getD (0, 0)).2)⟩]) ::
        fieldsFrom m (pos + (i.read?.getD (0, 0)).2) l := rfl

/-- A run in two parts. -/
theorem execAll_append (l' : List Instr) (h : execAll l s = .next t) : execAll (l ++ l') s = execAll l' t := by
  induction l generalizing s with
  | nil => cases h; rfl
  | cons i l ih =>
    obtain ⟨u, hu, _⟩ := exec_effect i s
    rw [execAll_cons hu] at h
    rw [List.cons_append, execAll_cons hu]
    exact ih h

end

end Sys2Proof.Machine
end

