-- ==== Sys2Proof/Tests/Slice0.lean ====
section
/-! SUPPORT. The model's own tests: ill-formed terms refused, words decoded, one step per instruction against the
spec's examples and vectors (95_test_vectors.md, and the Example lines of the rules), and witnesses of the statements'
hypotheses. -/

namespace Sys2Proof.Tests

open Sys2Proof Sys2Proof.Machine

/-! ### WellFormed: each check refuses an ill-formed term -/

theorem test_wf_rid : (Instr.rdInit 16).wellFormed = false ∧ (Instr.rdInit 15).wellFormed = true := by decide
theorem test_wf_len : (Instr.rdBits 0 256).wellFormed = false ∧ (Instr.rdBits 0 255).wellFormed = true := by decide
theorem test_wf_len_get : (Instr.bmGet 0 256).wellFormed = false ∧ (Instr.bmGet 0 255).wellFormed = true := by decide
theorem test_wf_index : (Instr.bmGet (2 ^ 64) 1).wellFormed = false ∧
    (Instr.bmGet (2 ^ 64 - 1) 1).wellFormed = true := by
  decide
theorem test_wf_nbits : (Instr.bmZfill (2 ^ 64)).wellFormed = false ∧
    (Instr.bmZfill (2 ^ 64 - 1)).wellFormed = true := by
  decide
theorem test_wf_rid_each :
    ([.rdBits 16 0, .rdBool 16, .rdByte 16, .rdSize 16, .rdUnread 16, .rdHasunread 16, .rdStat 16] : List Instr).all
      (fun i => i.wellFormed == false) = true := by decide

/-! ### Decode: one word per instruction, bit by bit `op rid zero len` from the patterns of R50 -/

theorem test_decode_bmNew : decode ⟨0b00010000_0000_000000000000_00000000#32, 0#64⟩ = .ok .bmNew := by decide
/-- V1a.7: `arg[63:8]` is ignored. -/
theorem test_decode_bmPushb : decode ⟨0b00010001_0000_000000000000_00000000#32, 0xFFFFFFFFFFFFFF80#64⟩ =
    .ok (.bmPushb 0x80#8) := by decide
theorem test_decode_bmPushw : decode ⟨0b00010010_0000_000000000000_00000000#32, 0x0123456789ABCDEF#64⟩ =
    .ok (.bmPushw 0x0123456789ABCDEF#64) := by decide
theorem test_decode_bmCommit : decode ⟨0b00010011_0000_000000000000_00000000#32, 7#64⟩ = .ok .bmCommit := by decide
theorem test_decode_bmZfill : decode ⟨0b00010100_0000_000000000000_00000000#32, 0x64#64⟩ = .ok (.bmZfill 100) := by
  decide
theorem test_decode_bmGet : decode ⟨0b00100000_0000_000000000000_11111111#32, 0xFFFFFFFFFFFFFFFF#64⟩ =
    .ok (.bmGet (2 ^ 64 - 1) 255) := by decide
theorem test_decode_bmSize : decode ⟨0b00100001_0000_000000000000_00000000#32, 0#64⟩ = .ok .bmSize := by decide
theorem test_decode_rdInit : decode ⟨0b00110000_0001_000000000000_00000000#32, 0#64⟩ = .ok (.rdInit 1) := by decide
theorem test_decode_rdBits : decode ⟨0b00110001_1111_000000000000_01000001#32, 9#64⟩ = .ok (.rdBits 15 65) := by decide
theorem test_decode_rdBool : decode ⟨0b00110010_0010_000000000000_00000000#32, 0#64⟩ = .ok (.rdBool 2) := by decide
theorem test_decode_rdByte : decode ⟨0b00110011_0011_000000000000_00000000#32, 0#64⟩ = .ok (.rdByte 3) := by decide
theorem test_decode_rdSize : decode ⟨0b00110100_0100_000000000000_00000000#32, 0#64⟩ = .ok (.rdSize 4) := by decide
theorem test_decode_rdUnread : decode ⟨0b00110101_0101_000000000000_00000000#32, 0#64⟩ = .ok (.rdUnread 5) := by decide
theorem test_decode_rdHasunread : decode ⟨0b00110110_1000_000000000000_00000000#32, 0#64⟩ = .ok (.rdHasunread 8) := by
  decide
theorem test_decode_rdStat : decode ⟨0b00110111_1110_000000000000_00000000#32, 0#64⟩ = .ok (.rdStat 14) := by decide

/-- R51 (a): V7.1, V7.2, V7.3. -/
theorem test_illegal_op : decode ⟨0x00000000#32, 0#64⟩ = .error .opcode ∧
    decode ⟨0xFF000000#32, 0#64⟩ = .error .opcode ∧
    decode ⟨0x15000000#32, 0#64⟩ = .error .opcode := by decide
/-- R51 (b): the lowest and the highest bit of `zero`. -/
theorem test_illegal_zero : decode ⟨0x20000108#32, 0#64⟩ = .error .zero ∧
    decode ⟨0x37080000#32, 0#64⟩ = .error .zero := by
  decide
/-- R51 (c): formats N, A and G. -/
theorem test_illegal_rid : decode ⟨0x21100000#32, 0#64⟩ = .error .rid ∧ decode ⟨0x12800000#32, 0#64⟩ = .error .rid ∧
    decode ⟨0x20100008#32, 0#64⟩ = .error .rid := by decide
/-- R51 (d): formats N (V7.25), A and R. -/
theorem test_illegal_len : decode ⟨0x13000001#32, 0#64⟩ = .error .len ∧ decode ⟨0x14000080#32, 0#64⟩ = .error .len ∧
    decode ⟨0x33000008#32, 0#64⟩ = .error .len := by decide

/-! ### Encode and the assembler (R53, R54) -/

/-- The listing R53 gives for `BM_GET 60, 8`. -/
theorem test_encode_bmGet : encode (.bmGet 60 8) = ⟨0x20000008#32, 0x3C#64⟩ := by decide
/-- P3.11: `RD_BITS 1, 64`. -/
theorem test_encode_rdBits : encode (.rdBits 1 64) = ⟨0x31100040#32, 0#64⟩ := by decide
theorem test_encode_bmPushb : encode (.bmPushb 0xAB#8) = ⟨0x11000000#32, 0xAB#64⟩ := by decide
theorem test_bmFromBytes : bmFromBytes [0xAB#8, 0xCD#8] = [.bmNew, .bmPushb 0xAB#8, .bmPushb 0xCD#8, .bmCommit] := by
  decide
theorem test_bmFromWords : bmFromWords [7#64] = [.bmNew, .bmPushw 7#64, .bmCommit] ∧ bmEmpty = [.bmZfill 0] := by decide
theorem test_operands : (Instr.rdBits 1 64).operands = [1, 64] ∧ (Instr.bmGet 60 8).operands = [60, 8] ∧
    (Instr.bmGet 60 8).opcode.mnemonic = "BM_GET" := by decide

/-! ### The status codes, as the test vectors' notation lists them (95_test_vectors.md section 0) -/

theorem test_status_codes :
    [Status.ok, .indexOutOfRange, .lengthOutOfRange, .lengthExceedsRange, .illegalCmd, .badReader, .badMode,
      .misalignedPush, .capacity].map Status.code =
    [0x00#8, 0x01#8, 0x02#8, 0x03#8, 0x10#8, 0x11#8, 0x12#8, 0x13#8, 0x14#8] := by decide

/-! ### States for the step tests -/

/-- A store holding the words in order. -/
def storeOf (ws : List Word) : Memory :=
  (ws.zipIdx).foldl (fun m p => m.writeWord p.2 p.1) []

/-- `CAPW = 4`, `NRD = 2`; a construction in progress, or a built Bitmap, of the given size, readers fresh. -/
def stateOf (mode : Mode) (size : Nat) (ws : List Word) : State :=
  { State.reset with mode := mode, size := size, mem := storeOf ws }

/-- The Bitmap of V2: `W0`, `W1`, `W2`. -/
def v2 : State := stateOf .built 192 [0x0123456789ABCDEF#64, 0xFEDCBA9876543210#64, 0x0F1E2D3C4B5A6978#64]

/-- The Bitmap of L1.3: bytes `AB CD EF`. -/
def v6 : State := stateOf .built 24 [0xABCDEF0000000000#64]

/-- The same with reader 0 as given. -/
def withReader (pos : Nat) (err : Option Latched) (s : State) : State := setReader 0 ⟨pos, err⟩ s

/-- What a command answers, and a view of the state after it. -/
def run {α : Type} (i : Instr) (s : State) (f : State → α) : Option (Option Response × α) :=
  match exec i s with
  | .next t => some (t.rsps.getLast?, f t)
  | .fault _ => none
  | .refused _ => none

/-! ### One step per instruction -/

/-- R61's example, on a Bitmap with an advanced and an Errored reader. -/
theorem test_bmNew : run .bmNew (withReader 12 (some ⟨.lengthExceedsRange, 8⟩) v6)
    (fun t => (t.mode, t.size, t.mem.word 0, t.reader 0)) =
    some (some ⟨.ok, 0⟩, .loading, 0, 0#64, ⟨0, none⟩) := by decide
/-- R62's example: the second byte. -/
theorem test_bmPushb : run (.bmPushb 0xCD#8) (stateOf .loading 8 [0xAB00000000000000#64])
    (fun t => (t.size, t.mem.word 0)) = some (some ⟨.ok, 0⟩, 16, 0xABCD000000000000#64) := by decide
/-- V1a.18: the store is full. -/
theorem test_bmPushb_full : run (.bmPushb 0x99#8) (stateOf .loading 256 [1#64]) (fun t => (t.size, t.mem.word 0)) =
    some (some ⟨.capacity, 0⟩, 256, 1#64) := by decide
/-- R63's example: the second word. -/
theorem test_bmPushw : run (.bmPushw 0x55555555FFFFFFFF#64) (stateOf .loading 64 [0xFFFFFFFFAAAAAAAA#64])
    (fun t => (t.size, t.mem.word 0, t.mem.word 1)) =
      some (some ⟨.ok, 0⟩, 128, 0xFFFFFFFFAAAAAAAA#64, 0x55555555FFFFFFFF#64) := by decide
/-- V1a.8: misaligned, and (R103) before the capacity check. -/
theorem test_bmPushw_misaligned : run (.bmPushw 7#64) (stateOf .loading 248 [1#64]) (fun t => (t.size, t.mem.word 3)) =
    some (some ⟨.misalignedPush, 0⟩, 248, 0#64) := by decide
/-- R64's example. -/
theorem test_bmCommit : run .bmCommit (stateOf .loading 24 [0xABCDEF0000000000#64])
    (fun t => (t.mode, t.size, t.mem.word 0)) = some (some ⟨.ok, 0⟩, .built, 24, 0xABCDEF0000000000#64) := by decide
/-- V1a.2. -/
theorem test_bmCommit_built : run .bmCommit v6 State.mode = some (some ⟨.badMode, 0⟩, .built) := by decide
/-- V1b.15: accepted while loading, the pushed byte discarded. -/
theorem test_bmZfill : run (.bmZfill 8) (stateOf .loading 8 [0xAA00000000000000#64])
    (fun t => (t.mode, t.size, t.mem)) = some (some ⟨.ok, 0⟩, .built, 8, []) := by decide
/-- V1b.1: one bit beyond the capacity. -/
theorem test_bmZfill_capacity : run (.bmZfill 257) v6 (fun t => (t.mode, t.size, t.mem.word 0)) =
    some (some ⟨.capacity, 0⟩, .built, 24, 0xABCDEF0000000000#64) := by decide
/-- V2.17: two words with the largest overflow. -/
theorem test_bmGet : run (.bmGet 63 64) v2 (fun _ => ()) = some (some ⟨.ok, 0xFF6E5D4C3B2A1908#64⟩, ()) := by decide
/-- V2.24, V2.28, V2.27, V2.25: which check fires. -/
theorem test_bmGet_errors : run (.bmGet 192 0) v2 (fun _ => ()) = some (some ⟨.indexOutOfRange, 0⟩, ()) ∧
    run (.bmGet 192 65) v2 (fun _ => ()) = some (some ⟨.indexOutOfRange, 0⟩, ()) ∧
    run (.bmGet 128 65) v2 (fun _ => ()) = some (some ⟨.lengthOutOfRange, 0⟩, ()) ∧
    run (.bmGet 191 2) v2 (fun _ => ()) = some (some ⟨.lengthExceedsRange, 0⟩, ()) := by decide
/-- V2.39, V1a.5. -/
theorem test_bmSize : run .bmSize v2 State.size = some (some ⟨.ok, 0xC0#64⟩, 192) ∧
    run .bmSize (stateOf .loading 8 []) State.size = some (some ⟨.badMode, 0⟩, 8) := by decide
/-- R81's example. -/
theorem test_rdInit : run (.rdInit 0) (withReader 60 (some ⟨.lengthExceedsRange, 8⟩) v2) (fun t => t.reader 0) =
    some (some ⟨.ok, 0⟩, ⟨0, none⟩) := by decide
/-- V3.9: bits 16 to 63. -/
theorem test_rdBits : run (.rdBits 0 48) (withReader 16 none v2) (fun t => (t.reader 0, t.reader 1)) =
    some (some ⟨.ok, 0x0000456789ABCDEF#64⟩, ⟨64, none⟩, ⟨0, none⟩) := by decide
/-- V3.13: the error latches, the position stays. -/
theorem test_rdBits_latch : run (.rdBits 0 65) (withReader 128 none v2) (fun t => t.reader 0) =
    some (some ⟨.lengthOutOfRange, 0⟩, ⟨128, some ⟨.lengthOutOfRange, 65⟩⟩) := by decide
/-- V2.3: bit 7 is 1. -/
theorem test_rdBool : run (.rdBool 0) (withReader 7 none v2) (fun t => t.reader 0) =
    some (some ⟨.ok, 1⟩, ⟨8, none⟩) := by decide
/-- V3.16: the replay. -/
theorem test_rdBool_replay : run (.rdBool 0) (withReader 128 (some ⟨.lengthOutOfRange, 65⟩) v2) (fun t => t.reader 0) =
    some (some ⟨.lengthOutOfRange, 0⟩, ⟨128, some ⟨.lengthOutOfRange, 65⟩⟩) := by decide
/-- V6.2: a byte that straddles two. -/
theorem test_rdByte : run (.rdByte 0) (withReader 12 none v6) (fun t => t.reader 0) =
    some (some ⟨.ok, 0xDE#64⟩, ⟨20, none⟩) := by decide
/-- V6.3. -/
theorem test_rdByte_latch : run (.rdByte 0) (withReader 20 none v6) (fun t => t.reader 0) =
    some (some ⟨.lengthExceedsRange, 0⟩, ⟨20, some ⟨.lengthExceedsRange, 8⟩⟩) := by decide
/-- V3.23: also when Errored. -/
theorem test_rdSize : run (.rdSize 0) (withReader 128 (some ⟨.lengthOutOfRange, 65⟩) v2) (fun t => t.reader 0) =
    some (some ⟨.ok, 0xC0#64⟩, ⟨128, some ⟨.lengthOutOfRange, 65⟩⟩) := by decide
/-- R103: `BAD_READER` before `BAD_MODE`. -/
theorem test_rdSize_badReader : run (.rdSize 2) (stateOf .loading 0 []) State.mode =
    some (some ⟨.badReader, 0⟩, .loading) := by decide
/-- V3.21, V4.6. -/
theorem test_rdUnread : run (.rdUnread 0) (withReader 128 (some ⟨.lengthOutOfRange, 65⟩) v2) State.size =
    some (some ⟨.ok, 0x40#64⟩, 192) ∧
    run (.rdUnread 0) (withReader 192 none v2) State.size = some (some ⟨.ok, 0#64⟩, 192) := by decide
/-- V3.22, V4.5. -/
theorem test_rdHasunread : run (.rdHasunread 0) (withReader 128 (some ⟨.lengthOutOfRange, 65⟩) v2) State.size =
    some (some ⟨.ok, 1#64⟩, 192) ∧
    run (.rdHasunread 0) (withReader 192 none v2) State.size = some (some ⟨.ok, 0#64⟩, 192) := by decide
/-- V3.14. -/
theorem test_rdStat : run (.rdStat 0) (withReader 128 (some ⟨.lengthOutOfRange, 65⟩) v2) (fun t => t.reader 0) =
    some (some ⟨.ok, 0x0000000000804102#64⟩, ⟨128, some ⟨.lengthOutOfRange, 65⟩⟩) := by decide
/-- V3.11. -/
theorem test_rdStat_active : run (.rdStat 0) (withReader 128 none v2) (fun t => t.reader 0) =
    some (some ⟨.ok, 0x0000000000800000#64⟩, ⟨128, none⟩) := by decide

/-! ### The step -/

/-- What a step leaves in the response channel and in the inbox. -/
def stepView (s : State) : Option (List Response × List HostEvent) :=
  match step s with
  | .next t => some (t.rsps, t.inbox)
  | .fault _ => none
  | .refused _ => none

/-- P4.1 as the first step after reset: `RD_BYTE 0`. -/
theorem test_step_first : stepView (State.reset.withFetchWord 32 0x33000000) = some ([⟨.indexOutOfRange, 0⟩], []) := by
  decide
/-- V7.1: an illegal word. -/
theorem test_step_illegal : stepView (State.reset.withFetchWord 32 0) = some ([⟨.illegalCmd, 0⟩], []) := by decide
/-- The argument's bits count on from bit 32: `BM_ZFILL 257` on a store of 256 bits. -/
theorem test_step_arg : stepView (State.reset.withFetchWord 96 (257 * 2 ^ 32 + 0x14000000)) =
    some ([⟨.capacity, 0⟩], []) := by decide
/-- R121: reset empties the response channel. -/
theorem test_step_reset : stepView { v2 with inbox := [.reset, .takeResponse], rsps := [⟨.ok, 7⟩] } =
    some ([], [.takeResponse]) := by decide
/-- R55: the oldest response is delivered first. -/
theorem test_step_deliver : stepView { v2 with inbox := [.takeResponse], rsps := [⟨.ok, 7⟩, ⟨.ok, 8⟩] } =
    some ([⟨.ok, 8⟩], []) := by decide

/-! ### Witnesses: concrete states and operands that meet each statement's hypotheses -/

/-- The host offers one command. -/
def offered (cmd : BitVec 32) (arg : Word) (s : State) : State := { s with inbox := [.command ⟨cmd, arg⟩] }

/-- A Bitmap of 24 bits with reader 0 errored at bit 20 (the end of V6). -/
def v6Errored : State := withReader 20 (some ⟨.lengthExceedsRange, 8⟩) v6

theorem witness_DecodeOfEncode : (Instr.rdBits 15 255).wellFormed = true ∧
    (Instr.bmGet (2 ^ 64 - 1) 255).wellFormed = true := by
  decide

theorem witness_EncodeOfDecode : decode ⟨0x200000FF#32, 5#64⟩ = .ok (.bmGet 5 255) ∧
    (Instr.bmGet 5 255).opcode.format.usesArg = true ∧ (Instr.bmGet 5 255).opcode ≠ .bmPushb ∧
    decode ⟨0x11000000#32, 0x1FF#64⟩ = .ok (.bmPushb 0xFF#8) := by decide

theorem witness_DecodeSelectsTableRow : ∃ row ∈ opcodeTable, row.opcode = .rdBits ∧
    0x31F000FF#32 &&& row.mask = row.pattern := by
  decide

/-- One word of each of the classes (a) to (d). -/
theorem witness_IllegalWordRefused : [0x15000000#32, 0x30000100#32, 0x20F00000#32, 0x30000001#32].all (fun c =>
    opcodeTable.all fun row => c &&& row.mask != row.pattern) = true ∧
    (offered 0x15000000#32 0#64 v6).inbox = [.command ⟨0x15000000#32, 0#64⟩] := by decide

theorem witness_StepRunsDecoded : decode ⟨0x3110003C#32, 0#64⟩ = .ok (.rdBits 1 60) ∧
    decodeTableWord 96 (60 * 2 ^ 32 + 0x20000008) = some (.bmGet 60 8) := by decide

/-- Illegal word; reader number out of range; mode; the command's own rule. -/
theorem witness_DecodingAndCheckingOrder :
    (opcodeTable.all fun row => 0x00000000#32 &&& row.mask != row.pattern) = true ∧
    decode ⟨0x31200004#32, 0#64⟩ = .ok (.rdBits 2 4) ∧ v6.nrd = 2 ∧
    decode ⟨0x31100004#32, 0#64⟩ = .ok (.rdBits 1 4) ∧ (Instr.rdBits 1 4).acceptedIn .loading = false ∧
    (Instr.rdBits 1 4).acceptedIn v6.mode = true := by decide

theorem witness_EveryCommandGetsOneResponse : (offered 0x31100004#32 0#64 v6).inbox =
    .command ⟨0x31100004#32, 0#64⟩ :: [] := by
  decide

theorem witness_IdleAndDelivery : v6.inbox = [] ∧
    ({ v6 with inbox := [.takeResponse, .reset], rsps := [⟨.ok, 7⟩, ⟨.ok, 8⟩] } : State).rsps = ⟨.ok, 7⟩ :: [⟨.ok, 8⟩] ∧
    ({ v6 with inbox := [.takeResponse] } : State).rsps = [] := by decide

theorem witness_ResetEventRestoresReset : ({ v6Errored with inbox := [.reset, .takeResponse] } : State).inbox =
    .reset :: [.takeResponse] := by decide

theorem witness_ResetValues : 1 < Config.suggested.nrd := by decide

theorem witness_FirstCommandsAfterReset : 1 < Config.suggested.nrd ∧ (Instr.rdByte 1).read? = some (1, 8) := by decide

theorem witness_InvariantAtReset : (⟨1, 16⟩ : Config).valid ∧ (⟨2 ^ 42 - 1, 1⟩ : Config).valid := by decide

/-- The store of `AB CD EF` has no bit set from 24 on. -/
theorem padding_v6 (i : Nat) (h : 24 ≤ i) : v6.mem.bit i = false := by
  have hw : ∀ j < 64, 24 ≤ j → (0xABCDEF0000000000#64).getLsbD (63 - j) = false := by decide
  rw [show v6.mem = Memory.writeWord [] 0 0xABCDEF0000000000#64 from rfl, Memory.bit_writeWord]
  split
  · exact (congrArg _ (by omega)).trans (hw i (by omega) h)
  · exact Memory.bit_nil i

theorem reader_v6Errored (r : Nat) :
    v6Errored.reader r = ⟨20, some ⟨.lengthExceedsRange, 8⟩⟩ ∨ v6Errored.reader r = ⟨0, none⟩ := by
  rw [show v6Errored = setReader 0 ⟨20, some ⟨.lengthExceedsRange, 8⟩⟩ v6 from rfl, setReader_reader]
  split
  · exact .inl rfl
  · exact .inr (reader_of_rd_fresh (n := 2) rfl r)

/-- The invariant holds of a built Bitmap with an Errored Reader, and a command is offered there. -/
theorem witness_InvariantKeptByEveryStep : BlockInv v6Errored ∧
    ∃ t, step (offered 0x31100004#32 0#64 v6Errored) = .next t ∧ t.reader 1 = ⟨4, none⟩ := by
  refine ⟨⟨by decide, by decide, by decide, padding_v6, by decide, fun r => ?_,
    fun h => absurd h (by decide), fun r e h => ?_⟩, _, rfl, by decide⟩
  · rcases reader_v6Errored r with h | h <;> rw [h] <;> decide
  · rcases reader_v6Errored r with h' | h' <;> rw [h'] at h <;> cases h
    decide

theorem witness_ParametersNeverChange : ∃ t, step { v6 with inbox := [.reset] } = .next t ∧ t.capw = 4 := ⟨_, rfl, rfl⟩

/-- A refusal by a command's own rule, and one by the decoder. -/
theorem witness_RefusalsChangeNothing :
    (∃ t, exec (.bmZfill 257) v6 = .next t ∧ t.rsps = v6.rsps ++ [⟨.capacity, 0⟩]) ∧
    (∃ t, step (offered 0#32 0#64 v6) = .next t ∧ t.rsps = v6.rsps ++ [⟨.illegalCmd, 0⟩]) ∧
    Status.capacity.isRefusal = true ∧ Status.illegalCmd.isRefusal = true := ⟨⟨_, rfl, rfl⟩, ⟨_, rfl, rfl⟩, rfl, rfl⟩

theorem witness_ModeTransitions :
    (∃ t, exec (.bmZfill 256) (stateOf .loading 8 []) = .next t ∧ t.mode = .built) ∧
    (∃ t, exec (.bmZfill 257) (stateOf .loading 8 []) = .next t ∧ t.mode = .loading) ∧
    (∀ r, Instr.bmCommit.reader? = some r → r < v6.nrd) ∧ Instr.bmCommit.acceptedIn v6.mode = false ∧
    (∃ t, step (offered 0#32 0#64 v6) = .next t) ∧ (∃ t, step { v6 with inbox := [.reset] } = .next t) :=
  ⟨⟨_, rfl, rfl⟩, ⟨_, rfl, rfl⟩, fun r h => (by cases h), rfl, ⟨_, rfl⟩, ⟨_, rfl⟩⟩

/-- Room for exactly one byte more, on a store whose padding is 0; no room; the full store; and `BUILT`. -/
theorem witness_PushByteAppends :
    ((stateOf .loading 248 []).mode = .loading ∧ (stateOf .loading 248 []).size % 8 = 0 ∧
      (∀ i, (stateOf .loading 248 []).size ≤ i → (stateOf .loading 248 []).mem.bit i = false) ∧
      (stateOf .loading 248 []).size + 8 ≤ (stateOf .loading 248 []).capBits) ∧
    ((stateOf .loading 256 []).capBits < (stateOf .loading 256 []).size + 8 ∧
      (stateOf .loading 256 []).size ≤ (stateOf .loading 256 []).capBits) ∧ v6.mode = .built :=
  ⟨⟨rfl, rfl, fun i _ => Memory.bit_nil i, by decide⟩, by decide, rfl⟩

theorem witness_PushWordAppends :
    ((stateOf .loading 192 []).mode = .loading ∧ (stateOf .loading 192 []).size % 64 = 0 ∧
      (stateOf .loading 192 []).size + 64 ≤ (stateOf .loading 192 []).capBits) ∧
    (stateOf .loading 200 []).size % 64 ≠ 0 ∧
    ((stateOf .loading 256 []).size % 64 = 0 ∧
    (stateOf .loading 256 []).capBits < (stateOf .loading 256 []).size + 64 ∧
      (stateOf .loading 256 []).size ≤ (stateOf .loading 256 []).capBits) ∧
    v6.mode = .built := by decide

theorem witness_CommitBuilds : (stateOf .loading 24 []).mode = .loading ∧ v6.mode = .built := by decide

theorem witness_ZeroFillBuilds : 256 ≤ v6.capBits ∧ v6.capBits < 257 := by decide

theorem witness_WordPushIsEightBytePushes :
    (stateOf .loading 192 []).mode = .loading ∧ (stateOf .loading 192 []).size % 64 = 0 ∧
    (stateOf .loading 192 []).size + 64 ≤ (stateOf .loading 192 []).capBits ∧
    Memory.wf (stateOf .loading 192 []).mem = true ∧
    ∀ i, (stateOf .loading 192 []).size ≤ i → (stateOf .loading 192 []).mem.bit i = false :=
  ⟨rfl, rfl, by decide, rfl, fun i _ => Memory.bit_nil i⟩

theorem witness_ConstructionFromBytes : ([0xAB#8, 0xCD#8, 0xEF#8] : List Byte).length ≤ 8 * v6.capw := by decide

theorem witness_ConstructionFromWords : ([1#64, 2#64, 3#64, 4#64] : List Word).length ≤ v6.capw := by decide

/-- The shortest and the longest length. -/
theorem witness_ExtractionIsMemRead : 1 ≤ 1 ∧ 1 ≤ 64 ∧ 64 ≤ 64 ∧
    (extract v2.mem 63 64).toNat = v2.mem.memRead 63 64 := by decide

/-- The widest two-word range, and a one-word range, where the premise on the second word is empty. -/
theorem witness_FunnelFormAgrees : 64 ≤ 63 % 64 + 64 - 1 ∧ ¬64 ≤ 0 % 64 + 64 - 1 := by decide

theorem witness_GetSuccessAndErrors : Machine.get 192 v2.mem 191 1 = .ok 0#64 ∧ (191 : Nat) < 192 := by decide

/-- V2.32 as 10 bits and 14. -/
theorem witness_GetConcatenates : 1 ≤ 10 ∧ 1 ≤ 14 ∧ 10 + 14 ≤ 64 ∧
    Machine.get 192 v2.mem 20 (10 + 14) = .ok 0x56789A#64 := by
  decide

theorem witness_GetAnswers : v2.mode = .built ∧ (stateOf .loading 8 []).mode = .loading := by decide

theorem witness_SizeReported : v2.mode = .built ∧ v2.size < 2 ^ 48 ∧ 1 < v2.nrd ∧
    (stateOf .loading 8 []).mode = .loading := by
  decide

theorem witness_ReaderConstructed : v6Errored.mode = .built ∧ 0 < v6Errored.nrd := by decide

/-- One state for each clause: Errored; the last bits; the end; too long a length; too long a range. -/
theorem witness_ReadBitsMeaning : v2.mode = .built ∧ 0 < v2.nrd ∧
    (v6Errored.reader 0).err = some ⟨.lengthExceedsRange, 8⟩ ∧
    ((withReader 128 none v2).reader 0).err = none ∧ 128 < v2.size ∧ 64 ≤ 64 ∧ 128 + 64 ≤ v2.size ∧
    ((withReader 192 none v2).reader 0).err = none ∧ v2.size ≤ 192 ∧
    64 < 65 ∧ v2.size < 129 + 64 := by decide

theorem witness_ReadBoolMeaning : v2.mode = .built ∧ 0 < v2.nrd ∧
    (v6Errored.reader 0).err = some ⟨.lengthExceedsRange, 8⟩ ∧
    ((withReader 191 none v2).reader 0).err = none ∧ 191 < v2.size ∧
    ((withReader 192 none v2).reader 0).err = none ∧ v2.size ≤ 192 := by decide

theorem witness_ReadByteMeaning : v2.mode = .built ∧ 0 < v2.nrd ∧
    (v6Errored.reader 0).err = some ⟨.lengthExceedsRange, 8⟩ ∧
    ((withReader 184 none v2).reader 0).err = none ∧ 184 + 8 ≤ v2.size ∧
    ((withReader 192 none v2).reader 0).err = none ∧ v2.size ≤ 192 ∧
    ((withReader 185 none v2).reader 0).err = none ∧ 185 < v2.size ∧ v2.size < 185 + 8 := by decide

theorem witness_UnreadReported : v2.mode = .built ∧ 0 < v2.nrd ∧
    ((withReader 192 none v2).reader 0).pos ≤ v2.size ∧ v2.size < 2 ^ 48 := by decide

theorem witness_StatusReported : v6Errored.mode = .built ∧ 0 < v6Errored.nrd ∧ (v6Errored.reader 0).pos < 2 ^ 48 ∧
    (∀ e, (v6Errored.reader 0).err = some e → e.n < 256) ∧ (v6Errored.reader 1).err = none :=
  ⟨rfl, by decide, by decide, fun e h => by cases h; decide, rfl⟩

theorem witness_ZeroLengthReadAtEnd : v2.mode = .built ∧ 0 < v2.nrd ∧
    (withReader 192 none v2).reader 0 = ⟨(withReader 192 none v2).size, none⟩ := by decide

theorem witness_FailingReadLatches : (Instr.rdByte 0).read? = some (0, 8) ∧ v2.mode = .built ∧ 0 < v2.nrd ∧
    ((withReader 185 none v2).reader 0).err = none ∧ (withReader 185 none v2).get 185 8 = .error .lengthExceedsRange ∧
    ∃ t, exec (.rdByte 0) (withReader 185 none v2) = .next t ∧ (t.reader 0).err = some ⟨.lengthExceedsRange, 8⟩ :=
  ⟨rfl, rfl, by decide, by decide, by decide, _, rfl, by decide⟩

/-- An Errored Reader replaced by `RD_INIT`, by `BM_NEW`, and by reset. -/
theorem witness_ErroredNeverReturns : (v6Errored.reader 0).err ≠ none ∧
    (∃ t, exec (.rdInit 0) v6Errored = .next t ∧ t.reader 0 ≠ v6Errored.reader 0) ∧
    (Instr.bmNew).reinitialises 0 v6Errored.capBits = true ∧ v6Errored.mode = .built ∧ 0 < v6Errored.nrd ∧
    ∃ t, step { v6Errored with inbox := [.reset] } = .next t :=
  ⟨by decide, ⟨_, rfl, by decide⟩, rfl, rfl, by decide, _, rfl⟩

theorem witness_StickyErrorForever :
    (∃ t, exec (.rdByte 0) (withReader 185 none v2) = .next t ∧ t.rsps = v2.rsps ++ [⟨.lengthExceedsRange, 0⟩]) ∧
    v6Errored.mode = .built ∧ 0 < v6Errored.nrd ∧ (v6Errored.reader 0).err = some ⟨.lengthExceedsRange, 8⟩ ∧
    ∀ i ∈ [Instr.rdBits 0 1, .rdBool 0, .bmGet 0 8, .rdInit 1], i.reinitialises 0 v6Errored.capBits = false :=
  ⟨⟨_, rfl, by decide⟩, rfl, by decide, by decide, by decide⟩

theorem witness_PositionOnlyForward : ∃ t, exec (.rdBits 1 4) v6Errored = .next t ∧
    (t.reader 1).pos = (v6Errored.reader 1).pos + 4 := ⟨_, rfl, by decide⟩

theorem witness_OtherReadersUntouched : (∃ t, exec (.rdBits 1 4) v6Errored = .next t ∧ t.reader 1 = ⟨4, none⟩) ∧
    (Instr.rdBits 1 4).startsBitmap v6Errored.capBits = false ∧ (Instr.rdBits 1 4).reader? ≠ some 0 :=
  ⟨⟨_, rfl, by decide⟩, rfl, by decide⟩

theorem witness_BitmapImmutable : (∃ t, exec (.rdBits 1 4) v6Errored = .next t ∧ t.reader 1 = ⟨4, none⟩) ∧
    v6Errored.mode = .built ∧ (Instr.bmCommit).startsBitmap v6Errored.capBits = false := ⟨⟨_, rfl, by decide⟩, rfl, rfl⟩

theorem witness_StoreWritesOnlyInConstruction :
    ∃ t, exec (.bmPushb 0xAB#8) (stateOf .loading 248 []) = .next t ∧ t.mem ≠ (stateOf .loading 248 []).mem :=
  ⟨_, rfl, by decide⟩

theorem witness_QueriesChangeNothing : ∃ t, exec (.rdStat 0) v6Errored = .next t ∧ t.rsps = [⟨.ok, 0x140803#64⟩] :=
  ⟨_, rfl, by decide⟩

/-- Together the reads ask for all 24 bits. -/
theorem witness_SequentialReadsAreFields : v6.mode = .built ∧ 0 < v6.nrd ∧ (v6.reader 0).err = none ∧
    (∀ i ∈ [Instr.rdBits 0 12, .rdByte 0, .rdBool 0, .rdBits 0 3], ∃ n, i.read? = some (0, n) ∧ 1 ≤ n ∧ n ≤ 64) ∧
    (v6.reader 0).pos + bitsAsked [Instr.rdBits 0 12, .rdByte 0, .rdBool 0, .rdBits 0 3] ≤ v6.size := by
  refine ⟨rfl, by decide, by decide, ?_, by decide⟩
  simp [Instr.read?]

/-- V6.1 to V6.5: the third read fails. -/
theorem witness_BatchedCheckSound : v6.mode = .built ∧ 0 < v6.nrd ∧ (v6.reader 0).err = none ∧
    ∀ i ∈ [Instr.rdBits 0 12, .rdByte 0, .rdByte 0, .rdBits 0 4], ∃ n, i.read? = some (0, n) := by
  refine ⟨rfl, by decide, by decide, ?_⟩
  simp [Instr.read?]

theorem witness_ReaderContextsIndependent : v6.mode = .built ∧
    (∀ i ∈ [Instr.rdBits 0 4, .bmGet 20 4, .rdBits 1 9, .rdInit 1], i.startsBitmap v6.capBits = false) ∧
    (Instr.rdBits 0 4).reader? = some 0 ∧ ∃ t, exec (.rdBits 0 4) v6 = .next t ∧ t.reader 0 = ⟨4, none⟩ :=
  ⟨rfl, by decide, rfl, _, rfl, by decide⟩

end Sys2Proof.Tests
end

section
/-! The proofs about the block's state: its reset values, and which commands may change the Bitmap (R22, R23). -/

namespace Sys2Proof

theorem Instr.startsBitmap_iff {i : Instr} {capBits : Nat} :
    i.startsBitmap capBits = true ↔ i = .bmNew ∨ ∃ n, i = .bmZfill n ∧ n ≤ capBits := by
  cases i <;> simp [Instr.startsBitmap]

theorem Instr.pushes_iff {i : Instr} :
    i.pushes = true ↔ (∃ b, i = .bmPushb b) ∨ ∃ w, i = .bmPushw w := by
  cases i <;> simp [Instr.pushes]

namespace Machine

/-! ### Reset -/

theorem resetWith_nrd (c : Config) : (State.resetWith c).nrd = c.nrd := List.length_replicate

/-- Every context number reads fresh after reset, also one beyond the last context. -/
theorem resetWith_reader (c : Config) (r : Nat) : (State.resetWith c).reader r = Reader.fresh :=
  reader_of_rd_fresh rfl r

/-- Settles O13: the store is the empty list of cells, and every context file entry is a fresh Reader. -/
theorem resetValues : Obligations.ResetValues := by
  intro c
  refine ⟨rfl, rfl, Memory.word_nil, resetWith_nrd c, fun r _ => ?_⟩
  rw [resetWith_reader]
  exact ⟨rfl, rfl⟩

/-! ### The Bitmap -/

/-- What a command can do to the Bitmap: leave store, `size` and `mode` alone, start a new one, or, in `LOADING`
only, append to it or commit it (R23, R24, R36). -/
theorem Effect.bitmap_cases {i : Instr} {s t : State} (h : Effect i s t) :
    (t.mem = s.mem ∧ t.size = s.size ∧ t.mode = s.mode) ∨
    i.startsBitmap s.capBits = true ∨
    (s.mode = .loading ∧ i.pushes = true ∧ s.size < t.size ∧ t.mode = s.mode) ∨
    (s.mode = .loading ∧ i = .bmCommit ∧ t.mem = s.mem ∧ t.size = s.size) := by
  cases h with
  | started m n hi =>
    refine .inr (.inl (Instr.startsBitmap_iff.mpr ?_))
    exact hi.imp (fun ⟨hi, _⟩ => hi) (fun ⟨hi, _, hn⟩ => ⟨n, hi, hn⟩)
  | pushedByte b hi hm => exact .inr (.inr (.inl ⟨hm, Instr.pushes_iff.mpr (.inl ⟨b, hi⟩), by simp, rfl⟩))
  | pushedWord w hi hm => exact .inr (.inr (.inl ⟨hm, Instr.pushes_iff.mpr (.inr ⟨w, hi⟩), by simp, rfl⟩))
  | committed hi hm => exact .inr (.inr (.inr ⟨hm, hi, rfl, rfl⟩))
  | _ => exact .inl ⟨rfl, rfl, rfl⟩

/-- A command that starts no Bitmap, in `BUILT` or by being neither a push nor `BM_COMMIT`, leaves the Bitmap alone. -/
theorem Effect.bitmap_frame {i : Instr} {s t : State} (h : Effect i s t) (hs : i.startsBitmap s.capBits = false)
    (hb : s.mode = .built ∨ i.pushes = false ∧ i ≠ .bmCommit) :
    t.mem = s.mem ∧ t.size = s.size ∧ t.mode = s.mode := by
  rcases h.bitmap_cases with same | starts | ⟨hm, hp, _⟩ | ⟨hm, hi, _⟩
  · exact same
  · simp [hs] at starts
  · simp [hm, hp] at hb
  · simp [hm, hi] at hb

/-- The query and reader commands start no Bitmap, and they are neither pushes nor `BM_COMMIT`. -/
theorem startsNothing_of_queryOrReader {i : Instr} (capBits : Nat)
    (h : i.opcode ∈ [.bmGet, .bmSize, .rdInit, .rdBits, .rdBool, .rdByte, .rdSize, .rdUnread, .rdHasunread, .rdStat]) :
    i.startsBitmap capBits = false ∧ i.pushes = false ∧ i ≠ .bmCommit := by
  refine ⟨Bool.eq_false_iff.mpr fun hs => ?_, Bool.eq_false_iff.mpr fun hp => ?_, fun hc => ?_⟩
  · rcases Instr.startsBitmap_iff.mp hs with rfl | ⟨n, rfl, _⟩ <;> simp [Instr.opcode] at h
  · rcases Instr.pushes_iff.mp hp with ⟨b, rfl⟩ | ⟨w, rfl⟩ <;> simp [Instr.opcode] at h
  · simp [hc, Instr.opcode] at h

/-- Settles O48: both halves are the frame of an effect that starts no Bitmap. -/
theorem bitmapImmutable : Obligations.BitmapImmutable := by
  intro i s t hexec hcase
  have frame : t.mem = s.mem ∧ t.size = s.size ∧ t.mode = s.mode := by
    rcases hcase with ⟨hm, hs⟩ | hop
    · exact (effect_of_exec hexec).bitmap_frame hs (.inl hm)
    · obtain ⟨hs, hquiet⟩ := startsNothing_of_queryOrReader s.capBits hop
      exact (effect_of_exec hexec).bitmap_frame hs (.inr hquiet)
  obtain ⟨hmem, hsize, hmode⟩ := frame
  exact ⟨hmem, fun a => by rw [hmem], hsize, hmode⟩

end Machine

end Sys2Proof
end

section
/-! The proofs about the store's layout: bits and bytes in the 64-bit words (R30, R31). -/

namespace Sys2Proof.Machine

/-! ### Bits in words (R30) -/

/-- Shifting down and masking with 1 picks out one value position, R30's way to read a bit. -/
theorem toNat_ushiftRight_and_one (v : Word) (p : Nat) :
    ((v >>> p) &&& 1#64).toNat = (v.getLsbD p).toNat := by
  rw [BitVec.and_one_eq_setWidth_ofBool_getLsbD, BitVec.getLsbD_ushiftRight, Nat.add_zero]
  cases v.getLsbD p <;> rfl

/-- Settles O28: the first clause is the definition of `Memory.bit` with the shift and mask read as a value position,
the second its inverse. -/
theorem storeBitLayout : Obligations.StoreBitLayout := by
  intro m
  refine ⟨fun i => ?_, fun w p hp => m.getLsbD_word_eq_bit w p hp⟩
  rw [toNat_ushiftRight_and_one, Memory.bit]

/-! ### Bytes in words (R31) -/

/-- Byte `k` of a store word is the byte at byte address `8w + k`. -/
theorem wordByte_word (m : Memory) (w k : Nat) (hk : k < 8) :
    wordByte (m.word w) k = m.read (8 * w + k) := by
  apply BitVec.eq_of_getLsbD_eq
  intro p hp
  rw [getLsbD_wordByte _ _ _ hp, Memory.getLsbD_word _ _ _ (by omega),
    show 7 - (56 - 8 * k + p) / 8 = k by omega, show (56 - 8 * k + p) % 8 = p by omega]

/-- Settles O29: both clauses are the byte view of a word, bit by bit and as a whole byte. -/
theorem storeByteLayout : Obligations.StoreByteLayout := by
  intro m
  refine ⟨fun j u hu => ?_, fun j => ?_⟩
  · rw [Memory.bit_eq_read, show (8 * j + u) / 8 = j by omega, show (8 * j + u) % 8 = u by omega]
  · calc wordByte (m.word (j / 8)) (j % 8)
        = m.read (8 * (j / 8) + j % 8) := wordByte_word m _ _ (Nat.mod_lt _ (by decide))
      _ = m.read j := by rw [Nat.div_add_mod]

end Sys2Proof.Machine
end

section
/-! The proofs about the opcode table: which words a row selects, and the words that match no row (R50, R51). -/

namespace Sys2Proof

/-! ### The words of an opcode (R46, R50) -/

/-- The words that encode opcode `o`, field by field: the decoder and the table's rows are both compared with this. -/
def Opcode.Selects (o : Opcode) (cmd : BitVec 32) : Prop :=
  opField cmd = o.code ∧ zeroField cmd = 0 ∧ (o.format.usesRid = true ∨ ridField cmd = 0) ∧
    (o.format.usesLen = true ∨ lenField cmd = 0)

theorem Opcode.Selects.unique {o o' : Opcode} {cmd : BitVec 32} (h : o.Selects cmd) (h' : o'.Selects cmd) : o = o' :=
  Opcode.code_injective (h.1.symm.trans h'.1)

/-- The decoder accepts a word as opcode `o` exactly when `o` selects it. -/
theorem decode_opcode_iff (c : Command) (o : Opcode) :
    (∃ i, decode c = .ok i ∧ i.opcode = o) ↔ o.Selects c.cmd := by
  constructor
  · rintro ⟨i, hd, rfl⟩
    obtain ⟨o, hop, hz, hr, hl, rfl⟩ := decode_ok hd
    rw [opcode_assemble]
    exact ⟨hop, hz, hr, hl⟩
  · rintro ⟨hop, hz, hr, hl⟩
    exact ⟨assemble o c, decode_of_fields hop hz hr hl, opcode_assemble o c⟩

/-! ### The rows of the table (R50) -/

/-- The field mask of an operand of `n` bits: 0 where the format uses it, all ones where it must be 0. -/
def operandMask (n : Nat) (used : Bool) : BitVec n := if used then 0 else BitVec.allOnes n

theorem and_operandMask_eq_zero {n : Nat} (x : BitVec n) (used : Bool) :
    x &&& operandMask n used = 0 ↔ used = true ∨ x = 0 := by
  cases used <;> simp [operandMask]

/-- The two columns of R50, field by field: `match` holds the code and `mask` frees the operands. -/
theorem row_columns : ∀ row ∈ opcodeTable,
    row.pattern = packCmd row.opcode.code 0 0 0 ∧
    row.mask = packCmd (BitVec.allOnes 8) (operandMask 4 row.opcode.format.usesRid) (BitVec.allOnes 12)
      (operandMask 8 row.opcode.format.usesLen) := by
  decide

/-- A row's `match` and `mask` select the words of its opcode. -/
theorem row_matches_iff {row : Row} (h : row ∈ opcodeTable) (cmd : BitVec 32) :
    cmd &&& row.mask = row.pattern ↔ row.opcode.Selects cmd := by
  obtain ⟨hp, hm⟩ := row_columns row h
  calc cmd &&& row.mask = row.pattern
      ↔ packCmd (opField cmd) (ridField cmd) (zeroField cmd) (lenField cmd) &&& row.mask = row.pattern := by
        rw [packCmd_fields]
    _ ↔ opField cmd = row.opcode.code ∧ (row.opcode.format.usesRid = true ∨ ridField cmd = 0) ∧
          zeroField cmd = 0 ∧ (row.opcode.format.usesLen = true ∨ lenField cmd = 0) := by
        rw [hp, hm, packCmd_and, packCmd_inj, and_operandMask_eq_zero, and_operandMask_eq_zero,
          BitVec.and_allOnes, BitVec.and_allOnes]
    _ ↔ row.opcode.Selects cmd := by
        rw [Opcode.Selects, and_left_comm (a := zeroField cmd = 0)]

theorem opcodeTable_opcodes : opcodeTable.map Row.opcode = Opcode.all := by decide

/-- Each opcode has one row. -/
theorem row_eq_of_opcode {row row' : Row} (h : row ∈ opcodeTable) (h' : row' ∈ opcodeTable)
    (ho : row.opcode = row'.opcode) : row = row' :=
  List.inj_on_of_nodup_map (by rw [opcodeTable_opcodes]; decide) h h' ho

theorem exists_row (o : Opcode) : ∃ row ∈ opcodeTable, row.opcode = o :=
  List.mem_map.mp (opcodeTable_opcodes ▸ Opcode.mem_all o)

/-- Settles O3: decoder and row are both compared with the words of the opcode. -/
theorem decodeSelectsTableRow : Obligations.DecodeSelectsTableRow := by
  refine ⟨fun c row h => ?_, fun cmd row row' h h' hm hm' => ?_, opcodeTable_opcodes⟩
  · rw [decode_opcode_iff, row_matches_iff h]
  · rw [row_matches_iff h] at hm
    rw [row_matches_iff h'] at hm'
    exact row_eq_of_opcode h h' (hm.unique hm')

/-! ### The words that match no row (R51) -/

theorem matches_no_row_iff (cmd : BitVec 32) :
    (∀ row ∈ opcodeTable, cmd &&& row.mask ≠ row.pattern) ↔ ∀ o : Opcode, ¬o.Selects cmd := by
  constructor
  · intro h o hs
    obtain ⟨row, hrow, rfl⟩ := exists_row o
    exact h row hrow ((row_matches_iff hrow cmd).mpr hs)
  · intro h row hrow hm
    exact h row.opcode ((row_matches_iff hrow cmd).mp hm)

/-- The decoder refuses a word that matches no row. -/
theorem decode_error_of_no_row {c : Command} (h : ∀ row ∈ opcodeTable, c.cmd &&& row.mask ≠ row.pattern) :
    ∃ e, decode c = .error e := by
  cases hd : decode c with
  | error e => exact ⟨e, rfl⟩
  | ok i =>
    have hs : i.opcode.Selects c.cmd := (decode_opcode_iff c i.opcode).mp ⟨i, hd, rfl⟩
    exact absurd hs ((matches_no_row_iff c.cmd).mp h i.opcode)

theorem Format.usesRid_eq_false_iff (f : Format) : f.usesRid = false ↔ f ∈ [.N, .A, .G] := by
  cases f <;> decide

theorem Format.usesLen_eq_false_iff (f : Format) : f.usesLen = false ↔ f ∈ [.N, .A, .R] := by
  cases f <;> decide

/-- A word with the code of `o` is none of its words exactly by the classes (b) to (d). -/
theorem Opcode.not_selects_iff {o : Opcode} {cmd : BitVec 32} (ho : opField cmd = o.code) :
    ¬o.Selects cmd ↔ zeroField cmd ≠ 0 ∨ (o.format ∈ [.N, .A, .G] ∧ ridField cmd ≠ 0) ∨
      (o.format ∈ [.N, .A, .R] ∧ lenField cmd ≠ 0) := by
  simp only [Opcode.Selects, ho, true_and, not_and_or, not_or, Bool.not_eq_true,
    Format.usesRid_eq_false_iff, Format.usesLen_eq_false_iff, ne_eq]

/-- The four classes (a) to (d) of R51. -/
theorem selects_none_iff_classes (cmd : BitVec 32) :
    (∀ o : Opcode, ¬o.Selects cmd) ↔
      ((∀ o : Opcode, opField cmd ≠ o.code) ∨ ∃ o : Opcode, opField cmd = o.code ∧
        (zeroField cmd ≠ 0 ∨ (o.format ∈ [.N, .A, .G] ∧ ridField cmd ≠ 0) ∨
          (o.format ∈ [.N, .A, .R] ∧ lenField cmd ≠ 0))) := by
  constructor
  · intro h
    by_cases hop : ∃ o : Opcode, opField cmd = o.code
    · obtain ⟨o, ho⟩ := hop
      exact .inr ⟨o, ho, (Opcode.not_selects_iff ho).mp (h o)⟩
    · exact .inl (not_exists.mp hop)
  · rintro (hnone | ⟨o, ho, hclass⟩) o' hs
    · exact hnone o' hs.1
    · obtain rfl : o' = o := Opcode.code_injective (hs.1.symm.trans ho)
      exact (Opcode.not_selects_iff ho).mpr hclass hs

namespace Machine

/-- The step on an offered word that matches no row: the response `ILLEGAL_CMD` with data 0, and nothing else. -/
theorem step_of_no_row {s : State} {c : Command} {rest : List HostEvent} (hin : s.inbox = .command c :: rest)
    (h : ∀ row ∈ opcodeTable, c.cmd &&& row.mask ≠ row.pattern) :
    step s = .next { s with inbox := rest, rsps := s.rsps ++ [⟨.illegalCmd, 0⟩] } := by
  obtain ⟨e, hd⟩ := decode_error_of_no_row h
  exact step_illegal hin hd

/-- Settles O5: the step's refusal, and the words no opcode selects by classes. -/
theorem illegalWordRefused : Obligations.IllegalWordRefused := by
  refine ⟨fun s cmd arg rest hin h => step_of_no_row hin h, rfl, fun cmd => ?_⟩
  rw [matches_no_row_iff, selects_none_iff_classes]

end Machine

end Sys2Proof
end

section
/-! The proofs about the order of the checks: reader number, then mode, then the command's own rule (R56, R103). -/

namespace Sys2Proof.Machine

/-! ### The two checks before a command's own rule -/

/-- A command that names a reader is accepted in `BUILT` only, and its meaning starts with the reader's checks. -/
theorem exec_requireReader {i : Instr} {r : Nat} (hi : i.reader? = some r) (s : State) :
    (∀ m, i.acceptedIn m = (m == .built)) ∧ ∃ k, exec i s = .next (requireReader r s k) := by
  cases i <;> simp only [Instr.reader?, Option.some.injEq, reduceCtorEq] at hi
  all_goals
    subst hi
    exact ⟨fun _ => rfl, _, rfl⟩

theorem exec_badReader {i : Instr} {r : Nat} {s : State} (hi : i.reader? = some r) (hr : s.nrd ≤ r) :
    exec i s = .next (raise .badReader s) := by
  obtain ⟨_, k, hk⟩ := exec_requireReader hi s
  rw [hk, requireReader_bad k hr]

/-- A command that names no reader and is not accepted in the mode. -/
theorem exec_badMode_of_noReader {i : Instr} {s : State} (hi : i.reader? = none)
    (ha : i.acceptedIn s.mode = false) : exec i s = .next (raise .badMode s) := by
  cases i with
  | bmNew => simp [Instr.acceptedIn] at ha
  | bmZfill => simp [Instr.acceptedIn] at ha
  | bmPushb | bmPushw | bmCommit | bmGet | bmSize =>
    exact congrArg Host.Outcome.next (requireMode_neg _ (by simpa [Instr.acceptedIn] using ha))
  | _ => simp [Instr.reader?] at hi

theorem exec_badMode {i : Instr} {s : State} (hr : ∀ r, i.reader? = some r → r < s.nrd)
    (ha : i.acceptedIn s.mode = false) : exec i s = .next (raise .badMode s) := by
  cases hi : i.reader? with
  | none => exact exec_badMode_of_noReader hi ha
  | some r =>
    obtain ⟨hacc, k, hk⟩ := exec_requireReader hi s
    have hm : s.mode ≠ .built := by simpa [hacc] using ha
    rw [hk, requireReader_mode k (hr r hi) hm]

/-! ### The command's own rule -/

/-- No extraction error is reported with a status of the first three steps of R56. -/
theorem ErrKind.status_ne (e : ErrKind) :
    e.status ≠ .illegalCmd ∧ e.status ≠ .badReader ∧ e.status ≠ .badMode := by
  cases e <;> decide

/-- Past the checks, a command answers none of the statuses of the first three steps of R56. -/
theorem Effect.own_response {i : Instr} {s t : State} (h : Effect i s t)
    (hr : ∀ r, i.reader? = some r → r < s.nrd) (ha : i.acceptedIn s.mode = true) :
    ∃ x, t.rsps = s.rsps ++ [x] ∧ x.status ≠ .illegalCmd ∧ x.status ≠ .badReader ∧ x.status ≠ .badMode := by
  cases h with
  | badReader r hi hge => exact absurd (hr r hi) (Nat.not_lt.mpr hge)
  | badMode _ hna => simp [ha] at hna
  | getFailed _ _ e => exact ⟨_, rfl, e.status_ne⟩
  | replayed _ _ e => exact ⟨_, rfl, e.kind.status_ne⟩
  | latched _ _ e => exact ⟨_, rfl, e.status_ne⟩
  | _ => exact ⟨_, rfl, by simp⟩

/-- Settles O8: the step runs `exec`, whose two checks come before its own rule. -/
theorem decodingAndCheckingOrder : Obligations.DecodingAndCheckingOrder := by
  intro s c rest hin
  refine ⟨step_of_no_row hin, fun i hd => ?_⟩
  have hstep : step s = exec i { s with inbox := rest } := step_legal hin hd
  refine ⟨?_, fun hr ha => ?_, fun hr ha => ⟨hstep, fun t x ht hx => ?_⟩⟩
  · rintro ⟨r, hi, hge⟩
    exact hstep.trans (exec_badReader hi hge)
  · exact hstep.trans (exec_badMode hr ha)
  · obtain ⟨y, hy, hstatus⟩ := (effect_of_exec (hstep.symm.trans ht)).own_response hr ha
    obtain rfl : y = x := List.singleton_inj.mp (List.append_cancel_left (hy.symm.trans hx))
    exact hstatus

end Sys2Proof.Machine
end

section
/-! The proofs about the construction commands: what each leaves, when it is refused, and the mode after every command
(R60 to R65, R67). -/

namespace Sys2Proof.Machine

/-! ### A new Bitmap (R61, R65) -/

/-- A new Bitmap has a zero store, and its contexts, as many as before, all hold fresh Readers. -/
theorem newBitmap_clears (m : Mode) (n : Nat) (s : State) :
    (∀ w, (newBitmap m n s).mem.word w = 0) ∧ (newBitmap m n s).nrd = s.nrd ∧
      ∀ r, (newBitmap m n s).reader r = ⟨0, none⟩ :=
  ⟨Memory.word_nil, List.length_replicate, reader_of_rd_fresh rfl⟩

/-- Settles O20: the next state is a new Bitmap and one response. -/
theorem newBitmapStarts : Obligations.NewBitmapStarts := fun s =>
  ⟨respond .ok 0 (newBitmap .loading 0 s), rfl, rfl, newBitmap_clears .loading 0 s⟩

theorem exec_bmZfill_fits {nbits : Nat} {s : State} (h : nbits ≤ s.capBits) :
    exec (.bmZfill nbits) s = .next (respond .ok 0 (newBitmap .built nbits s)) :=
  congrArg Host.Outcome.next (if_neg (Nat.not_lt.mpr h))

theorem exec_bmZfill_full {nbits : Nat} {s : State} (h : s.capBits < nbits) :
    exec (.bmZfill nbits) s = .next (raise .capacity s) :=
  congrArg Host.Outcome.next (if_pos h)

/-- Settles O24: the two sides of the capacity check. -/
theorem zeroFillBuilds : Obligations.ZeroFillBuilds := fun nbits s =>
  ⟨fun h => ⟨_, exec_bmZfill_fits h, rfl, newBitmap_clears .built nbits s⟩, exec_bmZfill_full⟩

/-! ### Commit (R64) -/

theorem exec_bmCommit_loading {s : State} (hm : s.mode = .loading) :
    exec .bmCommit s = .next (respond .ok 0 { s with mode := .built }) :=
  congrArg Host.Outcome.next (requireMode_pos _ hm)

/-- A command of the `LOADING` phase is refused by mode in `BUILT`. -/
theorem exec_badMode_of_built {i : Instr} {s : State} (hi : i.reader? = none)
    (ha : i.acceptedIn .built = false) (hm : s.mode = .built) : exec i s = .next (raise .badMode s) :=
  exec_badMode_of_noReader hi (hm ▸ ha)

/-- Settles O23: the two sides of the mode check. -/
theorem commitBuilds : Obligations.CommitBuilds := fun _ =>
  ⟨exec_bmCommit_loading, exec_badMode_of_built rfl rfl⟩

/-! ### The mode after every command (R60) -/

/-- Only a command that starts a Bitmap, and `BM_COMMIT`, can change the mode. -/
theorem Effect.mode_eq {i : Instr} {s t : State} (h : Effect i s t) (hs : i.startsBitmap s.capBits = false)
    (hc : i ≠ .bmCommit) : t.mode = s.mode := by
  rcases h.bitmap_cases with ⟨_, _, hmode⟩ | starts | ⟨_, _, _, hmode⟩ | ⟨_, commits, _⟩
  · exact hmode
  · simp [hs] at starts
  · exact hmode
  · exact absurd commits hc

/-- `BM_COMMIT` leaves `BUILT`: accepted it builds, and refused it was in `BUILT`. -/
theorem mode_of_exec_bmCommit {s t : State} (h : exec .bmCommit s = .next t) : t.mode = .built := by
  cases hm : s.mode with
  | loading =>
    rw [exec_bmCommit_loading hm] at h
    cases h
    rfl
  | built =>
    rw [exec_badMode_of_built rfl rfl hm] at h
    cases h
    exact hm

theorem mode_of_exec_bmZfill {nbits : Nat} {s t : State} (h : exec (.bmZfill nbits) s = .next t) :
    t.mode = if nbits ≤ s.capBits then .built else s.mode := by
  split
  · next hfits =>
    rw [exec_bmZfill_fits hfits] at h
    cases h
    rfl
  · next hover =>
    rw [exec_bmZfill_full (Nat.not_le.mp hover)] at h
    cases h
    rfl

/-- Settles O19: the three commands that write the mode one by one, all others by `Effect.mode_eq`. -/
theorem modeTransitions : Obligations.ModeTransitions := by
  refine ⟨fun i s t h => ?_, fun i s hr ha => exec_badMode hr ha, fun s t c e rest hin hd h => ?_,
    fun s t rest hin h => ?_⟩
  · cases i with
    | bmNew => cases h; rfl
    | bmCommit => exact mode_of_exec_bmCommit h
    | bmZfill nbits => exact mode_of_exec_bmZfill h
    | _ => exact (effect_of_exec h).mode_eq rfl nofun
  · rw [step_illegal hin hd] at h
    cases h
    rfl
  · rw [step_reset hin] at h
    cases h
    rfl

/-! ### Pushing a byte (R62) -/

theorem exec_bmPushb_fits {byte : Byte} {s : State} (hm : s.mode = .loading) (h : s.size + 8 ≤ s.capBits) :
    exec (.bmPushb byte) s = .next (respond .ok 0 (appendByte byte s)) :=
  congrArg Host.Outcome.next ((requireMode_pos _ hm).trans (if_neg (Nat.not_lt.mpr h)))

theorem exec_bmPushb_full {byte : Byte} {s : State} (hm : s.mode = .loading) (h : s.capBits < s.size + 8) :
    exec (.bmPushb byte) s = .next (raise .capacity s) :=
  congrArg Host.Outcome.next ((requireMode_pos _ hm).trans (if_pos h))

theorem word_appendByte (byte : Byte) (s : State) (w : Nat) :
    (appendByte byte s).mem.word w =
      if w = s.size / 64 then s.mem.word w ||| (byte.setWidth 64 <<< (56 - s.size % 64)) else s.mem.word w := by
  show Memory.word (s.mem.writeWord _ _) w = _
  rw [Memory.word_writeWord]
  split
  · next hw => rw [hw]
  · rfl

/-- ORing a byte into bits that are 0 is `MemWrite(size, 8, byte)`. -/
theorem memWritten_appendByte (byte : Byte) {s : State} (h8 : s.size % 8 = 0)
    (hpad : ∀ i, s.size ≤ i → s.mem.bit i = false) :
    MemWritten s.mem (appendByte byte s).mem s.size 8 (byte.setWidth 64) := by
  intro i
  rw [bit_appendByte byte s h8]
  split
  · next hi =>
    rw [hpad i hi.1, Bool.false_or, BitVec.getLsbD_setWidth, decide_eq_true (by omega), Bool.true_and]
  · rfl

theorem Memory.getLsbD_read_eq_bit (m : Memory) (a p : Nat) (hp : p < 8) :
    (m.read a).getLsbD p = m.bit (8 * a + (7 - p)) := by
  rw [Memory.bit_eq_read]
  congr 2 <;> omega

/-- A byte that lies in a stretch of 0 bits reads as 0. -/
theorem Memory.read_eq_zero_of_padding {m : Memory} {n : Nat} (hpad : ∀ i, n ≤ i → m.bit i = false) {a : Nat}
    (ha : n ≤ 8 * a) : m.read a = 0 := by
  apply BitVec.eq_of_getLsbD_eq
  intro p hp
  rw [Memory.getLsbD_read_eq_bit m a p hp, hpad _ (by omega)]
  exact BitVec.getLsbD_zero.symm

/-- A byte appended where the store reads 0 reads back, and every other byte stays. -/
theorem read_appendByte_of_zero (byte : Byte) {s : State} (h8 : s.size % 8 = 0) (h0 : s.mem.read (s.size / 8) = 0)
    (a : Nat) : (appendByte byte s).mem.read a = if a = s.size / 8 then byte else s.mem.read a := by
  rw [read_appendByte byte s h8]
  split
  · next ha =>
    rw [ha, h0]
    exact BitVec.zero_or
  · rfl

/-- Settles O21: the appended byte seen as a word, as bits and as a byte, and the three refusals. -/
theorem pushByteAppends : Obligations.PushByteAppends := by
  intro byte s
  refine ⟨fun hm h8 hpad hroom => ?_, exec_bmPushb_full, fun h8 hle => by simp only [State.capBits] at hle ⊢; omega,
    exec_badMode_of_built rfl rfl⟩
  have hread := read_appendByte_of_zero byte h8 (Memory.read_eq_zero_of_padding hpad (by omega))
  refine ⟨(appendByte byte s).mem, exec_bmPushb_fits hm hroom, word_appendByte byte s,
    memWritten_appendByte byte h8 hpad, fun a ha => ?_, ?_⟩
  · rw [hread, if_neg ha]
  · rw [hread, if_pos rfl]

/-! ### Pushing a word (R63) -/

theorem exec_bmPushw_misaligned {word : Word} {s : State} (hm : s.mode = .loading) (h : s.size % 64 ≠ 0) :
    exec (.bmPushw word) s = .next (raise .misalignedPush s) :=
  congrArg Host.Outcome.next ((requireMode_pos _ hm).trans (if_pos h))

/-- At a word boundary only the capacity check is left. -/
theorem exec_bmPushw_aligned {word : Word} {s : State} (hm : s.mode = .loading) (h64 : s.size % 64 = 0) :
    exec (.bmPushw word) s = .next
      (if s.capBits < s.size + 64 then raise .capacity s else respond .ok 0 (appendWord word s)) :=
  congrArg Host.Outcome.next ((requireMode_pos _ hm).trans (if_neg (not_not.mpr h64)))

theorem exec_bmPushw_fits {word : Word} {s : State} (hm : s.mode = .loading) (h64 : s.size % 64 = 0)
    (h : s.size + 64 ≤ s.capBits) : exec (.bmPushw word) s = .next (respond .ok 0 (appendWord word s)) := by
  rw [exec_bmPushw_aligned hm h64, if_neg (Nat.not_lt.mpr h)]

theorem exec_bmPushw_full {word : Word} {s : State} (hm : s.mode = .loading) (h64 : s.size % 64 = 0)
    (h : s.capBits < s.size + 64) : exec (.bmPushw word) s = .next (raise .capacity s) := by
  rw [exec_bmPushw_aligned hm h64, if_pos h]

/-- Settles O22: the appended word seen as a word, as bits and by the bytes it leaves, and the four refusals. -/
theorem pushWordAppends : Obligations.PushWordAppends := by
  intro word s
  refine ⟨fun hm h64 hroom => ?_, exec_bmPushw_misaligned, exec_bmPushw_full,
    fun h64 hle => by simp only [State.capBits] at hle ⊢; omega, exec_badMode_of_built rfl rfl⟩
  refine ⟨(appendWord word s).mem, exec_bmPushw_fits hm h64 hroom, Memory.word_writeWord _ _ _,
    bit_appendWord word s h64, fun a ha => ?_⟩
  rw [appendWord_mem, Memory.read_writeWord, if_neg (by omega)]

/-! ### A word against its eight bytes (R67) -/

/-- A run of `BM_PUSHB` that fits, from a canonical store that reads 0 from `size` on: every push is accepted, and the
store reads as before below `size` and as the pushed bytes, then 0, from there on. -/
theorem execAll_bmPushb (bytes : List Byte) {s : State} (hm : s.mode = .loading) (h8 : s.size % 8 = 0)
    (hroom : s.size + 8 * bytes.length ≤ s.capBits) (hwf : Memory.wf s.mem = true)
    (hzero : ∀ a, s.size / 8 ≤ a → s.mem.read a = 0) :
    ∃ m : Memory,
      execAll (bytes.map .bmPushb) s = .next { s with
        mem := m, size := s.size + 8 * bytes.length,
        rsps := s.rsps ++ List.replicate bytes.length ⟨.ok, 0⟩ } ∧
      Memory.wf m = true ∧
      ∀ a, m.read a = if a < s.size / 8 then s.mem.read a else bytes.getD (a - s.size / 8) 0 := by
  induction bytes generalizing s with
  | nil =>
    refine ⟨s.mem, by simp, hwf, fun a => ?_⟩
    split
    · rfl
    · next ha => exact hzero a (Nat.not_lt.mp ha)
  | cons b bytes ih =>
    rw [List.length_cons] at hroom
    have hpush : exec (.bmPushb b) s = .next (respond .ok 0 (appendByte b s)) :=
      exec_bmPushb_fits hm (by omega)
    have hread := read_appendByte_of_zero b h8 (hzero _ (Nat.le_refl _))
    have hsize : s.size + 8 + 8 * bytes.length = s.size + 8 * (bytes.length + 1) := by omega
    have hdiv : (s.size + 8) / 8 = s.size / 8 + 1 := by omega
    have hzero' : ∀ a, (s.size + 8) / 8 ≤ a → (appendByte b s).mem.read a = 0 := fun a ha => by
      rw [hread, if_neg (by omega), hzero a (by omega)]
    obtain ⟨m, hrun, hm', hbytes⟩ := ih (s := respond .ok 0 (appendByte b s)) hm
      (show (s.size + 8) % 8 = 0 by omega) (show s.size + 8 + 8 * bytes.length ≤ s.capBits by omega)
      (wf_appendByte b hwf) hzero'
    refine ⟨m, ?_, hm', fun a => ?_⟩
    · rw [List.map_cons, execAll_cons hpush, hrun]
      simp [List.replicate_succ, hsize]
    · simp only [hbytes, respond_size, respond_mem, appendByte_size, hdiv, hread]
      rcases Nat.lt_trichotomy a (s.size / 8) with hlt | rfl | hgt
      · rw [if_pos (by omega), if_neg (by omega), if_pos hlt]
      · simp
      · rw [if_neg (by omega), if_neg (by omega),
          show a - s.size / 8 = a - (s.size / 8 + 1) + 1 by omega, List.getD_cons_succ]

/-- The bytes of a word, the most significant first (R31). -/
def wordBytes (word : Word) : List Byte := (List.range 8).map (wordByte word)

theorem wordBytes_getD (word : Word) (k : Nat) : (wordBytes word).getD k 0 = if k < 8 then wordByte word k else 0 := by
  by_cases hk : k < 8 <;> simp [wordBytes, hk]

/-- A word appended at a word boundary with zeros from there on, byte by byte. -/
theorem read_appendWord_of_zero (word : Word) {s : State} (h64 : s.size % 64 = 0)
    (hzero : ∀ a, s.size / 8 ≤ a → s.mem.read a = 0) (a : Nat) :
    (appendWord word s).mem.read a =
      if a < s.size / 8 then s.mem.read a else (wordBytes word).getD (a - s.size / 8) 0 := by
  rw [appendWord_mem, Memory.read_writeWord, wordBytes_getD]
  by_cases hlow : a < s.size / 8
  · rw [if_neg (by omega), if_pos hlow]
  · rw [if_neg hlow]
    by_cases hin : a - s.size / 8 < 8
    · rw [if_pos (by omega), if_pos hin, show a % 8 = a - s.size / 8 by omega]
    · rw [if_neg (by omega), if_neg hin, hzero a (by omega)]

/-- Settles O25: the store after the eight pushes and the store after the one read alike byte by byte, and both are
canonical. -/
theorem wordPushIsEightBytePushes : Obligations.WordPushIsEightBytePushes := by
  intro word s hm h64 hroom hwf hpad
  have hzero : ∀ a, s.size / 8 ≤ a → s.mem.read a = 0 := fun a ha =>
    Memory.read_eq_zero_of_padding hpad (by omega)
  obtain ⟨m, hrun, hm', hread⟩ := execAll_bmPushb (wordBytes word) hm (by omega) hroom hwf hzero
  have hmem : m = (appendWord word s).mem := Memory.ext_of_wf hm' (wf_appendWord word hwf) fun a =>
    (hread a).trans (read_appendWord_of_zero word h64 hzero a).symm
  subst hmem
  exact ⟨_, _, hrun, exec_bmPushw_fits hm h64 hroom, rfl, rfl⟩

end Sys2Proof.Machine
end

section
/-! The proofs about the query commands: the extraction algorithm, its funnel-shifter form, and the answers of
`BM_GET`, `BM_SIZE` and `RD_SIZE` (R71 to R78, R85). -/

namespace Sys2Proof.Machine

/-! ### The extraction algorithm (R73) -/

/-- Settles O30: both numbers have the same value position `p`, for every `p`. -/
theorem extractionIsMemRead : Obligations.ExtractionIsMemRead := by
  intro m index length h1 h64
  apply Nat.eq_of_testBit_eq
  intro p
  rw [BitVec.testBit_toNat, getLsbD_extract m index length p h1 h64, Memory.testBit_memRead]

theorem extract_eq_ofNat_memRead (m : Memory) {index length : Nat} (h1 : 1 ≤ length) (h64 : length ≤ 64) :
    extract m index length = BitVec.ofNat 64 (m.memRead index length) := by
  rw [← extractionIsMemRead m index length h1 h64, BitVec.ofNat_toNat, BitVec.setWidth_eq]

/-! ### The funnel-shifter form (R78) -/

/-- Bit `q` of the 128-bit value, counted from its top, is bitmap bit `q` from the start of word `w`; the second word
matters only from `q = 64` on. -/
theorem Memory.getLsbD_word_append (m : Memory) (w : Nat) {lo : Word} {q : Nat} (hq : q < 128)
    (hlo : 64 ≤ q → lo = m.word (w + 1)) :
    (m.word w ++ lo).getLsbD (127 - q) = m.bit (64 * w + q) := by
  rw [BitVec.getLsbD_append]
  by_cases hsecond : 64 ≤ q
  · rw [if_pos (by omega), hlo hsecond, Memory.getLsbD_word_eq_bit _ _ _ (by omega)]
    congr 1
    omega
  · rw [if_neg (by omega), Memory.getLsbD_word_eq_bit _ _ _ (by omega)]
    congr 1
    omega

/-- Settles O31: value position `p < length` of either form is the bit at word offset `last - p`. -/
theorem funnelFormAgrees : Obligations.FunnelFormAgrees := by
  intro m index length lo h1 h64 last hlo
  refine ⟨?_, by omega, by omega, by omega⟩
  apply Nat.eq_of_testBit_eq
  intro p
  rw [BitVec.testBit_toNat, getLsbD_extract m index length p h1 h64, Nat.testBit_mod_two_pow, BitVec.testBit_toNat,
    BitVec.getLsbD_ushiftRight]
  by_cases hp : p < length
  · have hbit := m.getLsbD_word_append (index / 64) (lo := lo) (q := last - p) (by omega) fun h => hlo (by omega)
    rw [show 127 - last + p = 127 - (last - p) by omega, hbit,
      show 64 * (index / 64) + (last - p) = index + (length - 1 - p) by omega]
  · simp [hp]

/-! ### `BM_GET` (R75) -/

/-- A command of the `BUILT` phase is refused by mode in `LOADING`. -/
theorem exec_badMode_of_loading {i : Instr} {s : State} (hr : ∀ r, i.reader? = some r → r < s.nrd)
    (ha : i.acceptedIn .loading = false) (hm : s.mode = .loading) : exec i s = .next (raise .badMode s) :=
  exec_badMode hr (hm ▸ ha)

theorem exec_bmGet_ok {index len : Nat} {s : State} {b : Word} (hm : s.mode = .built)
    (hg : s.get index len = .ok b) : exec (.bmGet index len) s = .next (respond .ok b s) :=
  congrArg Host.Outcome.next ((requireMode_pos _ hm).trans (by rw [hg]))

theorem exec_bmGet_error {index len : Nat} {s : State} {e : ErrKind} (hm : s.mode = .built)
    (hg : s.get index len = .error e) : exec (.bmGet index len) s = .next (raise e.status s) :=
  congrArg Host.Outcome.next ((requireMode_pos _ hm).trans (by rw [hg]))

/-- Settles O34: the five cases of `get`, each with its side of every check. -/
theorem getAnswers : Obligations.GetAnswers := by
  intro index len s
  refine ⟨fun hm => ?_, exec_badMode_of_loading nofun rfl⟩
  rcases get_cases s.size s.mem index len with
    ⟨hout, hg⟩ | ⟨hin, hzero, hg⟩ | ⟨hin, hlong, hg⟩ | ⟨hin, h1, h64, hpast, hg⟩ | ⟨h1, h64, hfits, hg⟩
  · rw [if_pos hout]
    exact exec_bmGet_error hm hg
  · rw [if_neg (by omega), if_pos hzero]
    exact exec_bmGet_ok hm hg
  · rw [if_neg (by omega), if_neg (by omega), if_pos hlong]
    exact exec_bmGet_error hm hg
  · rw [if_neg (by omega), if_neg (by omega), if_neg (by omega), if_pos (by omega)]
    exact exec_bmGet_error hm hg
  · rw [if_neg (by omega), if_neg (by omega), if_neg (by omega), if_neg (by omega),
      ← extract_eq_ofNat_memRead s.mem h1 h64]
    exact exec_bmGet_ok hm hg

/-! ### `BM_SIZE` and `RD_SIZE` (R76, R85) -/

theorem exec_bmSize_built {s : State} (hm : s.mode = .built) :
    exec .bmSize s = .next (respond .ok (BitVec.ofNat 64 s.size) s) :=
  congrArg Host.Outcome.next (requireMode_pos _ hm)

theorem exec_rdSize_built {r : Nat} {s : State} (hm : s.mode = .built) (hr : r < s.nrd) :
    exec (.rdSize r) s = .next (respond .ok (BitVec.ofNat 64 s.size) s) :=
  congrArg Host.Outcome.next (requireReader_pos _ hr hm)

/-- Settles O35: `size` in 64 bits is the data of both commands, and below `2^48` it is `size` itself. -/
theorem sizeReported : Obligations.SizeReported := by
  refine fun s => ⟨fun hm hsize => ⟨BitVec.ofNat 64 s.size, ?_, exec_bmSize_built hm, fun r => exec_rdSize_built hm⟩,
    fun hm => ⟨exec_badMode_of_loading nofun rfl hm, fun r hr => exec_badMode_of_loading ?_ rfl hm⟩⟩
  · exact (BitVec.toNat_ofNat _ _).trans (Nat.mod_eq_of_lt (by omega))
  · rintro _ ⟨rfl⟩
    exact hr

end Sys2Proof.Machine
end

section
/-! The proofs about the reader commands: what each answers and leaves, that a latched error stays, and that a context
depends on the commands that name it alone (R81 to R92). -/

namespace Sys2Proof

theorem Instr.reader?_of_read? {i : Instr} {r n : Nat} (hi : i.read? = some (r, n)) : i.reader? = some r := by
  cases i <;> simp_all [Instr.read?, Instr.reader?]

theorem Instr.reinitialises_iff {i : Instr} {r capBits : Nat} :
    i.reinitialises r capBits = true ↔ i.startsBitmap capBits = true ∨ i = .rdInit r := by
  simp [Instr.reinitialises]

namespace Machine

/-! ### `get` and `MemRead` at the bounds (R71) -/

section get
variable {size index length : Nat} (m : Memory)

theorem get_atEnd (h : size ≤ index) : get size m index length = .error .indexOutOfRange := if_pos h

theorem get_tooLong (hin : index < size) (hlong : 64 < length) :
    get size m index length = .error .lengthOutOfRange := by
  rw [get, if_neg (by omega), if_neg (by omega), if_pos hlong]

theorem get_pastEnd (hin : index < size) (h64 : length ≤ 64) (hpast : size < index + length) :
    get size m index length = .error .lengthExceedsRange := by
  rw [get, if_neg (by omega), if_neg (by omega), if_neg (by omega), if_pos (by omega)]

/-- A range that fits reads as `MemRead`, also the empty one. -/
theorem get_fits (hin : index < size) (h64 : length ≤ 64) (hfits : index + length ≤ size) :
    get size m index length = .ok (BitVec.ofNat 64 (m.memRead index length)) := by
  rw [get, if_neg (by omega)]
  split
  · next hzero => exact congrArg Except.ok (by rw [hzero]; rfl)
  · rw [if_neg (by omega), if_neg (by omega), extract_eq_ofNat_memRead m (by omega) h64]

end get

theorem Memory.memRead_one (m : Memory) (i : Nat) : m.memRead i 1 = (m.bit i).toNat := by
  rw [Memory.memRead_succ, Memory.memRead_zero, Nat.mul_zero, Nat.zero_add, Nat.add_zero]

theorem toNat_ofNat_of_lt {w x : Nat} (h : x < 2 ^ w) : (BitVec.ofNat w x).toNat = x :=
  (BitVec.toNat_ofNat x w).trans (Nat.mod_eq_of_lt h)

/-! ### The read commands (R82 to R84): the rows of R80's table, each for every command that reads -/

section read
variable {i : Instr} {r n : Nat} {s : State} (hi : i.read? = some (r, n)) (hm : s.mode = .built) (hr : r < s.nrd)
include hi hm hr

theorem exec_read_errored {e : Latched} (he : (s.reader r).err = some e) :
    exec i s = .next (raise e.kind.status s) := by
  rw [exec_read hi hm hr, readBits, he]

theorem exec_read_ok {b : Word} (he : (s.reader r).err = none) (hg : s.get (s.reader r).pos n = .ok b) :
    exec i s = .next (respond .ok b (setReader r ⟨(s.reader r).pos + n, none⟩ s)) := by
  simp only [exec_read hi hm hr, readBits, advanceReader, he, hg]

theorem exec_read_error {e : ErrKind} (he : (s.reader r).err = none)
    (hg : s.get (s.reader r).pos n = .error e) :
    exec i s = .next (raise e.status (setReader r ⟨(s.reader r).pos, some ⟨e, n⟩⟩ s)) := by
  simp only [exec_read hi hm hr, readBits, latchError, he, hg]

theorem exec_read_fits (he : (s.reader r).err = none) (hin : (s.reader r).pos < s.size) (h64 : n ≤ 64)
    (hfits : (s.reader r).pos + n ≤ s.size) :
    exec i s = .next (respond .ok (BitVec.ofNat 64 (s.mem.memRead (s.reader r).pos n))
      (setReader r ⟨(s.reader r).pos + n, none⟩ s)) :=
  exec_read_ok hi hm hr he (get_fits s.mem hin h64 hfits)

theorem exec_read_atEnd (he : (s.reader r).err = none) (hout : s.size ≤ (s.reader r).pos) :
    exec i s = .next (raise .indexOutOfRange (setReader r ⟨(s.reader r).pos, some ⟨.indexOutOfRange, n⟩⟩ s)) :=
  exec_read_error hi hm hr he (get_atEnd s.mem hout)

theorem exec_read_tooLong (he : (s.reader r).err = none) (hin : (s.reader r).pos < s.size) (hlong : 64 < n) :
    exec i s = .next (raise .lengthOutOfRange (setReader r ⟨(s.reader r).pos, some ⟨.lengthOutOfRange, n⟩⟩ s)) :=
  exec_read_error hi hm hr he (get_tooLong s.mem hin hlong)

theorem exec_read_pastEnd (he : (s.reader r).err = none) (hin : (s.reader r).pos < s.size) (h64 : n ≤ 64)
    (hpast : s.size < (s.reader r).pos + n) :
    exec i s = .next
      (raise .lengthExceedsRange (setReader r ⟨(s.reader r).pos, some ⟨.lengthExceedsRange, n⟩⟩ s)) :=
  exec_read_error hi hm hr he (get_pastEnd s.mem hin h64 hpast)

end read

/-- Settles O37: the five rows at the length of `RD_BITS`. -/
theorem readBitsMeaning : Obligations.ReadBitsMeaning := fun _ _ _ hm hr =>
  ⟨fun _ => exec_read_errored rfl hm hr, exec_read_fits rfl hm hr, exec_read_atEnd rfl hm hr,
    exec_read_tooLong rfl hm hr, exec_read_pastEnd rfl hm hr⟩

/-- Settles O38: at length 1 the rows of the length checks are empty, and `MemRead` is the bit. -/
theorem readBoolMeaning : Obligations.ReadBoolMeaning := by
  refine fun r s hm hr => ⟨fun e => exec_read_errored rfl hm hr, fun he hin => ?_, exec_read_atEnd rfl hm hr⟩
  have hbit : BitVec.ofNat 64 (s.mem.memRead (s.reader r).pos 1) =
      if s.mem.bit (s.reader r).pos then 1 else 0 := by
    rw [Memory.memRead_one]
    cases s.mem.bit (s.reader r).pos <;> rfl
  rw [← hbit]
  exact exec_read_fits rfl hm hr he hin (by decide) hin

/-- Settles O39: at length 8 the row of the over-long read is empty, and `MemRead` fits a byte. -/
theorem readByteMeaning : Obligations.ReadByteMeaning := by
  refine fun r s hm hr => ⟨fun e => exec_read_errored rfl hm hr, fun he hfits => ?_, exec_read_atEnd rfl hm hr,
    fun he hin hpast => exec_read_pastEnd rfl hm hr he hin (by decide) hpast⟩
  have hlt : s.mem.memRead (s.reader r).pos 8 < 2 ^ 8 := Memory.memRead_lt _ _ _
  refine ⟨BitVec.ofNat 8 (s.mem.memRead (s.reader r).pos 8), toNat_ofNat_of_lt hlt, ?_⟩
  rw [BitVec.setWidth_ofNat_of_le_of_lt (by decide) hlt]
  exact exec_read_fits rfl hm hr he (by omega) (by decide) hfits

/-- Settles O42: a read at the end, of length 0. -/
theorem zeroLengthReadAtEnd : Obligations.ZeroLengthReadAtEnd := by
  intro r s hm hr hreader
  have hlatch := exec_read_atEnd (i := .rdBits r 0) rfl hm hr (by rw [hreader]) (by rw [hreader])
  rw [hreader] at hlatch
  exact hlatch

/-! ### The new Reader and the queries (R81, R86 to R88) -/

section query
variable {r : Nat} {s : State} (hm : s.mode = .built) (hr : r < s.nrd)
include hm hr

theorem exec_rdInit_built : exec (.rdInit r) s = .next (respond .ok 0 (setReader r Reader.fresh s)) :=
  congrArg Host.Outcome.next (requireReader_pos _ hr hm)

theorem exec_rdUnread_built :
    exec (.rdUnread r) s = .next (respond .ok (BitVec.ofNat 64 (unreadCount s.size (s.reader r))) s) :=
  congrArg Host.Outcome.next (requireReader_pos _ hr hm)

theorem exec_rdHasunread_built :
    exec (.rdHasunread r) s = .next (respond .ok (unreadFlag s.size (s.reader r)) s) :=
  congrArg Host.Outcome.next (requireReader_pos _ hr hm)

theorem exec_rdStat_built : exec (.rdStat r) s = .next (respond .ok (statWord (s.reader r)) s) :=
  congrArg Host.Outcome.next (requireReader_pos _ hr hm)

end query

/-- Settles O36: `RD_INIT` past the checks of its context. -/
theorem readerConstructed : Obligations.ReaderConstructed := fun _ _ => exec_rdInit_built

theorem unreadFlag_eq_zero_iff (size : Nat) (rd : Reader) : unreadFlag size rd = 0 ↔ rd.pos = size := by
  by_cases h : rd.pos = size <;> simp [unreadFlag, h]

theorem unreadFlag_eq_one_iff (size : Nat) (rd : Reader) : unreadFlag size rd = 1 ↔ rd.pos ≠ size := by
  by_cases h : rd.pos = size <;> simp [unreadFlag, h]

/-- Settles O40: the count fits the data, and within the Bitmap the flag is the comparison. -/
theorem unreadReported : Obligations.UnreadReported := by
  intro r s hm hr hpos hsize
  refine ⟨_, _, exec_rdUnread_built hm hr, ?_, exec_rdHasunread_built hm hr, ?_, unreadFlag_eq_zero_iff _ _⟩
  · rw [toNat_ofNat_of_lt (by rw [unreadCount]; omega), unreadCount, Nat.sub_add_cancel hpos]
  · rw [unreadFlag_eq_one_iff]
    omega

/-! ### The packed status (R88) -/

theorem extractLsb'_statWord_pos (rd : Reader) : (statWord rd).extractLsb' 16 48 = BitVec.ofNat 48 rd.pos :=
  (BitVec.extractLsb'_append_eq_of_le (by decide)).trans BitVec.extractLsb'_append_eq_left

theorem extractLsb'_statWord_len (rd : Reader) : (statWord rd).extractLsb' 8 8 = errLen rd.err :=
  (BitVec.extractLsb'_append_eq_of_le (by decide)).trans BitVec.extractLsb'_append_eq_right

theorem extractLsb'_statWord_code (rd : Reader) : (statWord rd).extractLsb' 0 8 = errCode rd.err :=
  BitVec.extractLsb'_append_eq_right

/-- While Active the two low bytes are 0. -/
theorem toNat_statWord_active {rd : Reader} (he : rd.err = none) (hpos : rd.pos < 2 ^ 48) :
    (statWord rd).toNat = rd.pos * 2 ^ 16 := by
  have hlow : statWord rd = BitVec.ofNat 48 rd.pos ++ 0#8 ++ 0#8 := by rw [statWord, he]; rfl
  calc (statWord rd).toNat = (rd.pos <<< 8 ||| 0) <<< 8 ||| 0 := by
        rw [hlow, BitVec.toNat_append, BitVec.toNat_append, toNat_ofNat_of_lt hpos]
        rfl
    _ = rd.pos * 2 ^ 16 := by rw [Nat.or_zero, Nat.or_zero, ← Nat.shiftLeft_add, Nat.shiftLeft_eq]

/-- Settles O41: the three fields of the status word. -/
theorem statusReported : Obligations.StatusReported := by
  intro r s hm hr hpos hlen
  refine ⟨statWord (s.reader r), exec_rdStat_built hm hr, ?_, fun he => toNat_statWord_active he hpos,
    fun e he => ⟨?_, ?_⟩⟩
  · rw [extractLsb'_statWord_pos, toNat_ofNat_of_lt hpos]
  · rw [extractLsb'_statWord_len, he]
    exact toNat_ofNat_of_lt (hlen e he)
  · rw [extractLsb'_statWord_code, he]
    show e.kind.status.code = _
    cases e.kind <;> rfl

/-! ### What a command can do to a context (R16, R80) -/

/-- A command leaves a context alone, gives it a new Reader, or is a read command on it that found it Active. -/
theorem Effect.reader_cases {i : Instr} {s t : State} (h : Effect i s t) (q : Nat) :
    t.reader q = s.reader q ∨
    i.reinitialises q s.capBits = true ∨
    ∃ n, i.read? = some (q, n) ∧ (s.reader q).err = none := by
  cases h with
  | started m n hi =>
    refine .inr (.inl (Instr.reinitialises_iff.mpr (.inl (Instr.startsBitmap_iff.mpr ?_))))
    exact hi.imp (fun ⟨hi, _⟩ => hi) (fun ⟨hi, _, hn⟩ => ⟨n, hi, hn⟩)
  | inited r hi =>
    by_cases hq : q = r
    · exact .inr (.inl (Instr.reinitialises_iff.mpr (.inr (hq ▸ hi))))
    · exact .inl (setReader_reader_ne _ s hq)
  | advanced r n b hi hr hm he =>
    by_cases hq : q = r
    · exact .inr (.inr ⟨n, hq ▸ hi, hq ▸ he⟩)
    · exact .inl (setReader_reader_ne _ s hq)
  | latched r n e hi hr hm he =>
    by_cases hq : q = r
    · exact .inr (.inr ⟨n, hq ▸ hi, hq ▸ he⟩)
    · exact .inl (setReader_reader_ne _ s hq)
  | _ => exact .inl rfl

/-- An Errored context changes only by being given a new Reader. -/
theorem Effect.reader_of_errored {i : Instr} {r : Nat} {s t : State} (h : Effect i s t)
    (hi : i.reinitialises r s.capBits = false) (he : (s.reader r).err ≠ none) : t.reader r = s.reader r := by
  rcases h.reader_cases r with same | renewed | ⟨_, _, active⟩
  · exact same
  · simp [hi] at renewed
  · exact absurd active he

/-- A command that starts no Bitmap leaves the contexts alone that it does not name. -/
theorem Effect.reader_of_unnamed {i : Instr} {r : Nat} {s t : State} (h : Effect i s t)
    (hs : i.startsBitmap s.capBits = false) (hi : i.reader? ≠ some r) : t.reader r = s.reader r := by
  rcases h.reader_cases r with same | renewed | ⟨n, reads, _⟩
  · exact same
  · rcases Instr.reinitialises_iff.mp renewed with starts | rfl
    · simp [hs] at starts
    · exact absurd rfl hi
  · exact absurd (Instr.reader?_of_read? reads) hi

/-! ### A latched error stays (R89) -/

/-- A read command is refused by its checks, which it answers with a refusal status, or it is `readBits`. -/
theorem exec_read_cases {i : Instr} {r n : Nat} (hi : i.read? = some (r, n)) (s : State) :
    (∃ st, st.isRefusal = true ∧ exec i s = .next (raise st s)) ∨
    (r < s.nrd ∧ s.mode = .built ∧ exec i s = .next (readBits r n s)) := by
  obtain ⟨_, k, hk⟩ := exec_requireReader (Instr.reader?_of_read? hi) s
  rcases requireReader_cases r s k with ⟨_, hbad⟩ | ⟨_, _, hbad⟩ | ⟨hr, hm, _⟩
  · exact .inl ⟨.badReader, rfl, hbad ▸ hk⟩
  · exact .inl ⟨.badMode, rfl, hbad ▸ hk⟩
  · exact .inr ⟨hr, hm, exec_read hi hm hr⟩

/-- After `readBits` with another answer than OK, the context is Errored with that answer: it was before, or the read
latched. -/
theorem readBits_latched {r n : Nat} {s : State} {x : Response} (hr : r < s.nrd)
    (hx : (readBits r n s).rsps = s.rsps ++ [x]) (hok : x.status ≠ .ok) :
    (readBits r n s).mode = s.mode ∧ (readBits r n s).nrd = s.nrd ∧
      ∃ e, ((readBits r n s).reader r).err = some e ∧ e.kind.status = x.status := by
  rcases readBits_cases r n s with ⟨e, he, h⟩ | ⟨b, _, _, h⟩ | ⟨e, _, _, h⟩ <;> rw [h] at hx ⊢
  · obtain rfl := List.singleton_inj.mp (List.append_cancel_left hx)
    exact ⟨rfl, rfl, e, he, rfl⟩
  · obtain rfl := List.singleton_inj.mp (List.append_cancel_left hx)
    exact absurd rfl hok
  · obtain rfl := List.singleton_inj.mp (List.append_cancel_left hx)
    refine ⟨rfl, List.length_set, ⟨e, n⟩, ?_, rfl⟩
    rw [raise_reader, setReader_reader_self _ hr]

/-- One command on an Errored context that does not re-initialise it: the context, the mode and the parameters stay,
and a read command on it replays the latch. -/
theorem exec_of_errored {i : Instr} {r : Nat} {s : State} {e : Latched} (hm : s.mode = .built) (hr : r < s.nrd)
    (he : (s.reader r).err = some e) (hi : i.reinitialises r s.capBits = false) :
    ∃ t, exec i s = .next t ∧ t.mode = .built ∧ t.nrd = s.nrd ∧ t.capBits = s.capBits ∧ t.reader r = s.reader r ∧
      ∀ n, i.read? = some (r, n) → t.rsps.drop s.rsps.length = [⟨e.kind.status, 0⟩] := by
  obtain ⟨t, ht, heff⟩ := exec_effect i s
  have hs : i.startsBitmap s.capBits = false := (Bool.or_eq_false_iff.mp hi).1
  obtain ⟨_, _, hmode⟩ := heff.bitmap_frame hs (.inl hm)
  obtain ⟨_, _, _, hcapw, hnrd, _⟩ := heff.response
  have hreader : t.reader r = s.reader r := heff.reader_of_errored hi (by simp [he])
  refine ⟨t, ht, hmode.trans hm, hnrd, congrArg (64 * ·) hcapw, hreader, fun n hread => ?_⟩
  rw [exec_read_errored hread hm hr he] at ht
  cases ht
  exact List.drop_left

/-- The transcript of a run lists its instructions. -/
theorem transcript_map_fst (l : List Instr) (s : State) : (transcript l s).map Prod.fst = l := by
  induction l generalizing s with
  | nil => rfl
  | cons i l ih =>
    obtain ⟨t, ht, _⟩ := exec_effect i s
    rw [transcript_cons ht, List.map_cons, ih]

/-- A run from an Errored context that does not re-initialise it. -/
theorem execAll_of_errored {l : List Instr} {r : Nat} {s : State} {e : Latched} (hm : s.mode = .built)
    (hr : r < s.nrd) (he : (s.reader r).err = some e) (hl : ∀ i ∈ l, i.reinitialises r s.capBits = false) :
    ∃ t, execAll l s = .next t ∧ t.reader r = s.reader r ∧
      ∀ p ∈ transcript l s, (∃ n, p.1.read? = some (r, n)) → p.2 = [⟨e.kind.status, 0⟩] := by
  induction l generalizing s with
  | nil => exact ⟨s, rfl, rfl, by simp⟩
  | cons i l ih =>
    obtain ⟨hi, hl⟩ := List.forall_mem_cons.mp hl
    obtain ⟨u, hu, hmode, hnrd, hcap, hreader, hreplay⟩ := exec_of_errored hm hr he hi
    obtain ⟨t, ht, hend, hrest⟩ := ih hmode (hnrd ▸ hr) (hreader ▸ he) (hcap ▸ hl)
    refine ⟨t, (execAll_cons hu).trans ht, hend.trans hreader, ?_⟩
    rw [transcript_cons hu]
    exact List.forall_mem_cons.mpr ⟨fun ⟨n, hn⟩ => hreplay n hn, hrest⟩

/-- Settles O45: the read that fails leaves the latch, and every run from there keeps it, by induction on the run. -/
theorem stickyErrorForever : Obligations.StickyErrorForever := by
  refine ⟨fun i r n s t x hi ht hx hok hnot => ?_, fun l r s e hm hr he hl => ?_⟩
  · rcases exec_read_cases hi s with ⟨st, hst, hrefused⟩ | ⟨hr, hm, hread⟩
    · cases hrefused.symm.trans ht
      obtain rfl := List.singleton_inj.mp (List.append_cancel_left hx)
      simp [hst] at hnot
    · cases hread.symm.trans ht
      obtain ⟨hmode, hnrd, hlatch⟩ := readBits_latched hr hx hok
      exact ⟨hmode.trans hm, hnrd ▸ hr, hlatch⟩
  · obtain ⟨t, ht, hreader, hreplay⟩ := execAll_of_errored hm hr he hl
    exact ⟨t, ht, hreader, transcript_map_fst l s, hreplay⟩

/-! ### Contexts are independent (R92) -/

theorem exec_badMode_of_named {i : Instr} {r : Nat} {s : State} (hi : i.reader? = some r) (hr : r < s.nrd)
    (hm : s.mode ≠ .built) : exec i s = .next (raise .badMode s) := by
  obtain ⟨_, k, hk⟩ := exec_requireReader hi s
  rw [hk, requireReader_mode k hr hm]

/-- Two states that a command on context `r` cannot tell apart: they may differ in the other contexts, the capacity,
and the port. -/
structure SameContext (r : Nat) (s u : State) : Prop where
  mode : s.mode = u.mode
  size : s.size = u.size
  mem : s.mem = u.mem
  nrd : s.nrd = u.nrd
  reader : s.reader r = u.reader r

/-- A command writes the same Reader to context `r` and answers the same in both states, and does nothing else. -/
def AnsweredAlike (i : Instr) (r : Nat) (s u : State) : Prop :=
  ∃ st d y, exec i s = .next (respond st d (setReader r y s)) ∧ exec i u = .next (respond st d (setReader r y u))

section context
variable {i : Instr} {r : Nat} {s u : State} (h : SameContext r s u)
include h

theorem SameContext.get (index length : Nat) : u.get index length = s.get index length := by
  rw [State.get, State.get, h.size, h.mem]

/-- The relation is kept when both contexts are written alike and answered, whatever they answer. -/
theorem SameContext.respond_setReader (st : Status) (d : Word) (y : Reader) :
    SameContext r (respond st d (setReader r y s)) (respond st d (setReader r y u)) where
  mode := h.mode
  size := h.size
  mem := h.mem
  nrd := by simpa [State.nrd] using h.nrd
  reader := by rw [respond_reader, respond_reader, setReader_reader, setReader_reader, h.nrd, h.reader]

/-- A command that only answers writes each context back as it is. -/
theorem SameContext.answeredAlike_of_unchanged {st : Status} {d : Word} (hs : exec i s = .next (respond st d s))
    (hu : exec i u = .next (respond st d u)) : AnsweredAlike i r s u := by
  refine ⟨st, d, s.reader r, ?_, ?_⟩
  · rw [setReader_same, hs]
  · rw [h.reader, setReader_same, hu]

theorem SameContext.answeredAlike_read {n : Nat} (hi : i.read? = some (r, n)) (hm : s.mode = .built)
    (hr : r < s.nrd) : AnsweredAlike i r s u := by
  have hm' : u.mode = .built := h.mode ▸ hm
  have hr' : r < u.nrd := h.nrd ▸ hr
  cases he : (s.reader r).err with
  | some e =>
    exact h.answeredAlike_of_unchanged (exec_read_errored hi hm hr he)
      (exec_read_errored hi hm' hr' (h.reader ▸ he))
  | none =>
    have he' : (u.reader r).err = none := h.reader ▸ he
    have hget : u.get (u.reader r).pos n = s.get (s.reader r).pos n := by rw [h.get, h.reader]
    cases hg : s.get (s.reader r).pos n with
    | ok b =>
      refine ⟨_, _, _, exec_read_ok hi hm hr he hg, ?_⟩
      rw [exec_read_ok hi hm' hr' he' (hget.trans hg), h.reader]
    | error e =>
      refine ⟨_, _, _, exec_read_error hi hm hr he hg, ?_⟩
      rw [exec_read_error hi hm' hr' he' (hget.trans hg), h.reader]
      rfl

/-- Past the checks: a new Reader, a read, or a query of what the two states share. -/
theorem SameContext.answeredAlike_built (hi : i.reader? = some r) (hm : s.mode = .built) (hr : r < s.nrd) :
    AnsweredAlike i r s u := by
  have hm' : u.mode = .built := h.mode ▸ hm
  have hr' : r < u.nrd := h.nrd ▸ hr
  cases i <;> simp only [Instr.reader?, Option.some.injEq, reduceCtorEq] at hi
  all_goals subst hi
  case rdInit => exact ⟨_, _, _, exec_rdInit_built hm hr, exec_rdInit_built hm' hr'⟩
  case rdBits => exact h.answeredAlike_read rfl hm hr
  case rdBool => exact h.answeredAlike_read rfl hm hr
  case rdByte => exact h.answeredAlike_read rfl hm hr
  case rdSize => exact h.answeredAlike_of_unchanged (exec_rdSize_built hm hr) (h.size ▸ exec_rdSize_built hm' hr')
  case rdUnread =>
    exact h.answeredAlike_of_unchanged (exec_rdUnread_built hm hr)
      (by rw [h.size, h.reader]; exact exec_rdUnread_built hm' hr')
  case rdHasunread =>
    exact h.answeredAlike_of_unchanged (exec_rdHasunread_built hm hr)
      (by rw [h.size, h.reader]; exact exec_rdHasunread_built hm' hr')
  case rdStat =>
    exact h.answeredAlike_of_unchanged (exec_rdStat_built hm hr) (h.reader ▸ exec_rdStat_built hm' hr')

/-- A command on context `r` answers and writes alike in both states, refusals included. -/
theorem SameContext.answeredAlike (hi : i.reader? = some r) : AnsweredAlike i r s u := by
  by_cases hr : r < s.nrd
  · by_cases hm : s.mode = .built
    · exact h.answeredAlike_built hi hm hr
    · exact h.answeredAlike_of_unchanged (exec_badMode_of_named hi hr hm)
        (exec_badMode_of_named hi (h.nrd ▸ hr) (h.mode ▸ hm))
  · exact h.answeredAlike_of_unchanged (exec_badReader hi (Nat.not_lt.mp hr))
      (exec_badReader hi (h.nrd ▸ Nat.not_lt.mp hr))

end context

/-- In `BUILT`, a command that starts no Bitmap and is not on context `r` leaves all that a command on `r` can see. -/
theorem SameContext.of_unnamed {i : Instr} {r : Nat} {s t u : State} (h : SameContext r s u) (heff : Effect i s t)
    (hm : s.mode = .built) (hs : i.startsBitmap s.capBits = false) (hi : i.reader? ≠ some r) :
    SameContext r t u := by
  obtain ⟨hmem, hsize, hmode⟩ := heff.bitmap_frame hs (.inl hm)
  obtain ⟨_, _, _, _, hnrd, _⟩ := heff.response
  exact ⟨hmode.trans h.mode, hsize.trans h.size, hmem.trans h.mem, hnrd.trans h.nrd,
    (heff.reader_of_unnamed hs hi).trans h.reader⟩

theorem SameContext.refl (r : Nat) (s : State) : SameContext r s s := ⟨rfl, rfl, rfl, rfl, rfl⟩

/-- A run of commands and the run of those that name `r` alone, from states alike for `r`: each command on `r` keeps
them alike and is answered alike, and each other one moves the first run only. -/
theorem SameContext.execAll_filter {l : List Instr} {r : Nat} {s u : State} (h : SameContext r s u)
    (hm : s.mode = .built) (hl : ∀ i ∈ l, i.startsBitmap s.capBits = false) :
    ∃ t v, execAll l s = .next t ∧ execAll (l.filter fun i => i.reader? == some r) u = .next v ∧
      t.reader r = v.reader r ∧
      (transcript l s).filter (fun p => p.1.reader? == some r) =
        transcript (l.filter fun i => i.reader? == some r) u := by
  induction l generalizing s u with
  | nil => exact ⟨s, u, rfl, rfl, h.reader, rfl⟩
  | cons i l ih =>
    obtain ⟨hi, hl⟩ := List.forall_mem_cons.mp hl
    by_cases hname : i.reader? = some r
    · obtain ⟨st, d, y, hs, hu⟩ := h.answeredAlike hname
      obtain ⟨t, v, ht, hv, hreader, htrans⟩ := ih (h.respond_setReader st d y) hm hl
      refine ⟨t, v, (execAll_cons hs).trans ht, ?_, hreader, ?_⟩
      · simp [hname, execAll_cons hu, hv]
      · simp [hname, transcript_cons hs, transcript_cons hu, htrans]
    · obtain ⟨s', hs, heff⟩ := exec_effect i s
      obtain ⟨_, _, hmode⟩ := heff.bitmap_frame hi (.inl hm)
      obtain ⟨_, _, _, hcapw, _⟩ := heff.response
      obtain ⟨t, v, ht, hv, hreader, htrans⟩ := ih (h.of_unnamed heff hm hi hname) (hmode.trans hm)
        (by rw [State.capBits, hcapw]; exact hl)
      refine ⟨t, v, (execAll_cons hs).trans ht, ?_, hreader, ?_⟩
      · simp [hname, hv]
      · simp [hname, transcript_cons hs, htrans]

/-- Writing a context with what it then reads is the write itself; one that does not exist is never written. -/
theorem set_reader_setReader (r : Nat) (y : Reader) (s : State) :
    s.rd.set r ((setReader r y s).reader r) = s.rd.set r y := by
  by_cases hr : r < s.nrd
  · rw [setReader_reader_self y hr]
  · rw [List.set_eq_of_length_le (Nat.not_lt.mp hr), List.set_eq_of_length_le (Nat.not_lt.mp hr)]

/-- Settles O53: the frame is the one write of a command on `r`; the comparison of the two runs is an induction on the
sequence. -/
theorem readerContextsIndependent : Obligations.ReaderContextsIndependent := by
  refine ⟨fun i r s t hi ht => ?_, fun l r s hm hl => (SameContext.refl r s).execAll_filter hm hl⟩
  obtain ⟨st, d, y, hs, _⟩ := (SameContext.refl r s).answeredAlike hi
  cases hs.symm.trans ht
  rw [respond_reader, set_reader_setReader]
  rfl

end Machine

end Sys2Proof
end

section
/-! The proofs about refusals and the error latch: a refusal changes nothing, a latch comes from a failing read alone,
and only a new Reader takes it away (R100, R102, R104, R105). -/

namespace Sys2Proof.Machine

/-! ### Refusals (R100, R102) -/

/-- The extraction errors are not of the refusal class. -/
theorem ErrKind.status_isRefusal (e : ErrKind) : e.status.isRefusal = false := by
  cases e <;> rfl

/-- A command only raises a status, or its answer is no refusal. -/
theorem Effect.raised_or_not_refusal {i : Instr} {s t : State} (h : Effect i s t) :
    (∃ st, t = raise st s) ∨ ∃ x, t.rsps = s.rsps ++ [x] ∧ x.status.isRefusal = false := by
  cases h with
  | badReader | badMode | misaligned | capacity | getFailed | replayed => exact .inl ⟨_, rfl⟩
  | latched r n e => exact .inr ⟨_, rfl, e.status_isRefusal⟩
  | _ => exact .inr ⟨_, rfl, rfl⟩

/-- A raised status changes the response channel alone. -/
theorem raise_eq_of_rsps {st : Status} {s : State} {l : List Response} (h : (raise st s).rsps = l) :
    raise st s = { s with rsps := l } := by
  rw [← h]
  rfl

/-- A refused command changes the response channel alone. -/
theorem Effect.eq_of_refusal {i : Instr} {s t : State} {x : Response} (h : Effect i s t)
    (hx : t.rsps = s.rsps ++ [x]) (href : x.status.isRefusal = true) : t = { s with rsps := s.rsps ++ [x] } := by
  rcases h.raised_or_not_refusal with ⟨st, rfl⟩ | ⟨y, hy, hnot⟩
  · exact raise_eq_of_rsps hx
  · obtain rfl : y = x := List.singleton_inj.mp (List.append_cancel_left (hy.symm.trans hx))
    simp [hnot] at href

/-- Settles O18: the decoder's refusal and `exec`'s are both a raised status; the codes are read off their table. -/
theorem refusalsChangeNothing : Obligations.RefusalsChangeNothing := by
  refine ⟨fun i s t x ht hx href => (effect_of_exec ht).eq_of_refusal hx href,
    fun c rest s t x hin ht hx href => ?_, fun st => ?_, fun st => ?_⟩
  · cases hd : decode c with
    | error e =>
      cases (step_illegal hin hd).symm.trans ht
      exact raise_eq_of_rsps hx
    | ok i => exact (effect_of_exec ((step_legal hin hd).symm.trans ht)).eq_of_refusal hx href
  · cases st <;> rfl
  · cases st <;> decide

/-! ### A new Reader (R105) -/

/-- A command that starts a Bitmap gives every context a new Reader. -/
theorem reader_of_startsBitmap {i : Instr} {s t : State} (ht : exec i s = .next t)
    (hs : i.startsBitmap s.capBits = true) (r : Nat) : t.reader r = Reader.fresh := by
  rcases Instr.startsBitmap_iff.mp hs with rfl | ⟨n, rfl, hn⟩
  · cases ht
    exact reader_of_rd_fresh rfl r
  · cases (exec_bmZfill_fits hn).symm.trans ht
    exact reader_of_rd_fresh rfl r

/-- `RD_INIT` gives its context a new Reader, or it is refused by the checks of the context and leaves it. -/
theorem reader_of_rdInit {r : Nat} {s t : State} (ht : exec (.rdInit r) s = .next t) :
    t.reader r = Reader.fresh ∨ ¬(s.mode = .built ∧ r < s.nrd) ∧ t.reader r = s.reader r := by
  by_cases hr : r < s.nrd
  · by_cases hm : s.mode = .built
    · cases (exec_rdInit_built hm hr).symm.trans ht
      exact .inl (setReader_reader_self _ hr)
    · cases (exec_badMode_of_named rfl hr hm).symm.trans ht
      exact .inr ⟨fun ⟨built, _⟩ => hm built, rfl⟩
  · cases (exec_badReader rfl (Nat.not_lt.mp hr)).symm.trans ht
    exact .inr ⟨fun ⟨_, present⟩ => hr present, rfl⟩

/-- A command that re-initialises a context gives it a new Reader, or it is an `RD_INIT` refused by its checks. -/
theorem reader_of_reinitialises {i : Instr} {r : Nat} {s t : State} (ht : exec i s = .next t)
    (hi : i.reinitialises r s.capBits = true) :
    t.reader r = Reader.fresh ∨ ¬(s.mode = .built ∧ r < s.nrd) ∧ t.reader r = s.reader r := by
  rcases Instr.reinitialises_iff.mp hi with starts | rfl
  · exact .inl (reader_of_startsBitmap ht starts r)
  · exact reader_of_rdInit ht

/-- Settles O44: an Errored context is left alone or re-initialised, and that is always with a fresh Reader. -/
theorem erroredNeverReturns : Obligations.ErroredNeverReturns := by
  refine ⟨fun i r s t ht he hne => ?_, fun i r s t ht hm hr hi => ?_, fun r s t rest hin ht => ?_⟩
  · rcases (effect_of_exec ht).reader_cases r with same | renewed | ⟨_, _, active⟩
    · exact absurd same hne
    · rcases reader_of_reinitialises ht renewed with fresh | ⟨_, same⟩
      · exact ⟨renewed, fresh⟩
      · exact absurd same hne
    · exact absurd active he
  · rcases reader_of_reinitialises ht hi with fresh | ⟨refused, _⟩
    · exact fresh
    · exact absurd ⟨hm, hr⟩ refused
  · cases (step_reset hin).symm.trans ht
    exact reader_of_rd_fresh rfl r

/-! ### The latch (R104) -/

/-- A read that finds its context Active and leaves it Errored has latched the error of its own `get`. -/
theorem get_error_of_readBits {r n : Nat} {s : State} {e : Latched} (hr : r < s.nrd)
    (hactive : (s.reader r).err = none) (herr : ((readBits r n s).reader r).err = some e) :
    e.n = n ∧ s.get (s.reader r).pos n = .error e.kind := by
  rcases readBits_cases r n s with ⟨_, he, _⟩ | ⟨b, _, _, h⟩ | ⟨k, _, hg, h⟩
  · simp [hactive] at he
  · rw [h, respond_reader, setReader_reader_self _ hr] at herr
    cases herr
  · rw [h, raise_reader, setReader_reader_self _ hr] at herr
    cases herr
    exact ⟨rfl, hg⟩

/-- Settles O43: the failing read by its row of R80's table; conversely, of the three things a command can do to a
context, only a read that passes its checks latches. -/
theorem failingReadLatches : Obligations.FailingReadLatches := by
  refine ⟨fun i r n s e hi hm hr he hg => exec_read_error hi hm hr he hg, fun i r s t e ht hactive herr => ?_⟩
  have changed : t.reader r ≠ s.reader r := fun same => by simp [same, hactive] at herr
  rcases (effect_of_exec ht).reader_cases r with same | renewed | ⟨n, reads, _⟩
  · exact absurd same changed
  · rcases reader_of_reinitialises ht renewed with fresh | ⟨_, same⟩
    · simp [fresh, Reader.fresh] at herr
    · exact absurd same changed
  · rcases exec_read_cases reads s with ⟨st, _, refused⟩ | ⟨hr, hm, hread⟩
    · cases refused.symm.trans ht
      exact absurd rfl changed
    · cases hread.symm.trans ht
      obtain ⟨rfl, hget⟩ := get_error_of_readBits hr hactive herr
      exact ⟨reads, hm, hget⟩

end Sys2Proof.Machine
end

section
/-! The proofs about reset and about the batched error check: what reset restores, what the first commands after it
answer, and what one `RD_STAT` says of a sequence of reads (R120 to R122, R125). -/

namespace Sys2Proof

/-- A read command gives no context a new Reader. -/
theorem Instr.reinitialises_of_read? {i : Instr} {r n : Nat} (hi : i.read? = some (r, n)) (q capBits : Nat) :
    i.reinitialises q capBits = false := by
  refine Bool.eq_false_iff.mpr fun h => ?_
  rcases Instr.reinitialises_iff.mp h with starts | rfl
  · rcases Instr.startsBitmap_iff.mp starts with rfl | ⟨_, rfl, _⟩ <;> cases hi
  · cases hi

namespace Machine

/-! ### A run of reads on one context (R125) -/

/-- In `BUILT`, a run of commands that start no Bitmap keeps the mode and the number of contexts. -/
theorem execAll_keeps_built {l : List Instr} {s t : State} (ht : execAll l s = .next t) (hm : s.mode = .built)
    (hl : ∀ i ∈ l, i.startsBitmap s.capBits = false) : t.mode = .built ∧ t.nrd = s.nrd := by
  induction l generalizing s with
  | nil =>
    cases ht
    exact ⟨hm, rfl⟩
  | cons i l ih =>
    obtain ⟨hi, hl⟩ := List.forall_mem_cons.mp hl
    obtain ⟨u, hu, heff⟩ := exec_effect i s
    obtain ⟨_, _, hmode⟩ := heff.bitmap_frame hi (.inl hm)
    obtain ⟨_, _, _, hcapw, hnrd, _⟩ := heff.response
    obtain ⟨htmode, htnrd⟩ := ih ((execAll_cons hu).symm.trans ht) (hmode.trans hm)
      (by rw [State.capBits, hcapw]; exact hl)
    exact ⟨htmode, htnrd.trans hnrd⟩

/-- Reads on an Errored context all replay its latch and leave it. -/
theorem execAll_reads_errored {l : List Instr} {r : Nat} {s : State} {e : Latched} (hm : s.mode = .built)
    (hr : r < s.nrd) (he : (s.reader r).err = some e) (hl : ∀ i ∈ l, ∃ n, i.read? = some (r, n)) :
    ∃ t, execAll l s = .next t ∧ t.reader r = s.reader r ∧
      transcript l s = l.map fun j => (j, [⟨e.kind.status, 0⟩]) := by
  obtain ⟨t, ht, hreader, hreplay⟩ := execAll_of_errored hm hr he fun i hi =>
    (hl i hi).elim fun _ hn => Instr.reinitialises_of_read? hn r s.capBits
  refine ⟨t, ht, hreader, ?_⟩
  have hfst := transcript_map_fst l s
  have hpair : ∀ p ∈ transcript l s, p = (p.1, [⟨e.kind.status, 0⟩]) := fun p hp => by
    have hmem : p.1 ∈ l := hfst ▸ List.mem_map_of_mem hp
    rw [← hreplay p hp (hl p.1 hmem)]
  calc transcript l s = (transcript l s).map id := (List.map_id _).symm
    _ = (transcript l s).map fun p => (p.1, [⟨e.kind.status, 0⟩]) := List.map_congr_left hpair
    _ = ((transcript l s).map Prod.fst).map fun j => (j, [⟨e.kind.status, 0⟩]) := by
        rw [List.map_map]
        rfl
    _ = l.map fun j => (j, [⟨e.kind.status, 0⟩]) := by rw [hfst]

/-- The transcript of reads that start Active at position `pos`, with the Reader they leave: all succeeded, or they
succeeded up to a first one that failed, and the latched error answered from there on. -/
inductive ReadsFrom (m : Memory) (pos : Nat) (l : List Instr) : List (Instr × List Response) → Reader → Prop
  | succeeded : ReadsFrom m pos l (fieldsFrom m pos l) ⟨pos + bitsAsked l, none⟩
  | failed (pre : List Instr) (i : Instr) (post : List Instr) (e : Latched) (hl : l = pre ++ i :: post) :
      ReadsFrom m pos l (fieldsFrom m pos pre ++ (i :: post).map fun j => (j, [⟨e.kind.status, 0⟩]))
        ⟨pos + bitsAsked pre, some e⟩

/-- One more read that succeeds, in front. -/
theorem ReadsFrom.cons {m : Memory} {pos r n : Nat} {i : Instr} {l : List Instr}
    {tr : List (Instr × List Response)} {y : Reader} (hi : i.read? = some (r, n))
    (h : ReadsFrom m (pos + n) l tr y) :
    ReadsFrom m pos (i :: l) ((i, [⟨.ok, BitVec.ofNat 64 (m.memRead pos n)⟩]) :: tr) y := by
  have hfields : ∀ l', (i, [⟨.ok, BitVec.ofNat 64 (m.memRead pos n)⟩]) :: fieldsFrom m (pos + n) l' =
      fieldsFrom m pos (i :: l') := fun l' => by rw [fieldsFrom_cons, hi, Option.getD_some]
  have hasked : ∀ l', pos + n + bitsAsked l' = pos + bitsAsked (i :: l') := fun l' => by
    rw [bitsAsked, hi, Option.getD_some, Nat.add_assoc]
  cases h with
  | succeeded =>
    rw [hfields, hasked]
    exact .succeeded
  | failed pre j post e hl =>
    rw [← List.cons_append, hfields, hasked]
    exact .failed (i :: pre) j post e (by rw [hl, List.cons_append])

/-- One read on an Active context: it answers the field and advances, or it latches the error that it answers. -/
theorem exec_read_active {i : Instr} {r n : Nat} {s : State} (hi : i.read? = some (r, n)) (hm : s.mode = .built)
    (hr : r < s.nrd) (he : (s.reader r).err = none) :
    ∃ t, exec i s = .next t ∧ t.mode = .built ∧ t.nrd = s.nrd ∧ t.mem = s.mem ∧
      ((t.reader r = ⟨(s.reader r).pos + n, none⟩ ∧
          t.rsps.drop s.rsps.length = [⟨.ok, BitVec.ofNat 64 (s.mem.memRead (s.reader r).pos n)⟩]) ∨
        ∃ e, t.reader r = ⟨(s.reader r).pos, some e⟩ ∧ t.rsps.drop s.rsps.length = [⟨e.kind.status, 0⟩]) := by
  cases hg : s.get (s.reader r).pos n with
  | ok b =>
    obtain ⟨hin, hfits, h64⟩ := get_ok_bound hg
    exact ⟨_, exec_read_fits hi hm hr he hin h64 hfits, hm, List.length_set, rfl,
      .inl ⟨setReader_reader_self _ hr, List.drop_left⟩⟩
  | error e =>
    exact ⟨_, exec_read_error hi hm hr he hg, hm, List.length_set, rfl,
      .inr ⟨⟨e, n⟩, setReader_reader_self _ hr, List.drop_left⟩⟩

/-- Reads of any lengths on an Active context, by induction on the sequence: each one that succeeds moves the start of
the rest, and the first that fails leaves the rest to the replay. -/
theorem execAll_reads {l : List Instr} {r : Nat} {s : State} (hm : s.mode = .built) (hr : r < s.nrd)
    (he : (s.reader r).err = none) (hl : ∀ i ∈ l, ∃ n, i.read? = some (r, n)) :
    ∃ t, execAll l s = .next t ∧ ReadsFrom s.mem (s.reader r).pos l (transcript l s) (t.reader r) := by
  induction l generalizing s with
  | nil =>
    have hreader : s.reader r = ⟨(s.reader r).pos + bitsAsked [], none⟩ := by rw [← he]; rfl
    exact ⟨s, rfl, hreader ▸ .succeeded⟩
  | cons i l ih =>
    obtain ⟨⟨n, hi⟩, hl⟩ := List.forall_mem_cons.mp hl
    obtain ⟨u, hu, hmode, hnrd, hmem, ⟨hreader, hanswer⟩ | ⟨e, hreader, hanswer⟩⟩ := exec_read_active hi hm hr he
    · obtain ⟨t, ht, hreads⟩ := ih hmode (hnrd ▸ hr) (by rw [hreader]) hl
      rw [hmem, hreader] at hreads
      refine ⟨t, (execAll_cons hu).trans ht, ?_⟩
      rw [transcript_cons hu, hanswer]
      exact hreads.cons hi
    · obtain ⟨t, ht, hsame, htrans⟩ := execAll_reads_errored hmode (hnrd ▸ hr) (by rw [hreader]) hl
      refine ⟨t, (execAll_cons hu).trans ht, ?_⟩
      rw [transcript_cons hu, hanswer, htrans, hsame, hreader]
      exact .failed [] i l e rfl

/-! ### The batched error check (R125) -/

/-- An extraction error is not `OK`, and its code is not that of `OK` (R100). -/
theorem ErrKind.status_ne_ok (e : ErrKind) : e.status ≠ .ok ∧ e.status.code ≠ 0 := by
  cases e <;> decide

/-- The code of the Reader that a run of reads leaves tells which of its two outcomes the run had. -/
theorem ReadsFrom.of_errCode {m : Memory} {pos : Nat} {l : List Instr} {tr : List (Instr × List Response)}
    {y : Reader} (h : ReadsFrom m pos l tr y) :
    (errCode y.err = 0 → tr = fieldsFrom m pos l ∧ y.pos = pos + bitsAsked l) ∧
    (errCode y.err ≠ 0 → ∃ pre i post st, l = pre ++ i :: post ∧ st.code = errCode y.err ∧ st ≠ .ok ∧
      tr = fieldsFrom m pos pre ++ (i :: post).map (fun j => (j, [⟨st, 0⟩])) ∧ y.pos = pos + bitsAsked pre) := by
  cases h with
  | succeeded => exact ⟨fun _ => ⟨rfl, rfl⟩, fun hne => absurd rfl hne⟩
  | failed pre i post e hl =>
    obtain ⟨hok, hcode⟩ := e.kind.status_ne_ok
    exact ⟨fun hzero => absurd hzero hcode, fun _ => ⟨pre, i, post, e.kind.status, hl, rfl, hok, rfl, rfl⟩⟩

/-- Settles O52: the run of reads has one of two outcomes, and the low byte of the status word is the code of the Reader
it leaves. -/
theorem batchedCheckSound : Obligations.BatchedCheckSound := by
  intro l r s hm hr he hl
  obtain ⟨t, ht, hreads⟩ := execAll_reads hm hr he hl
  obtain ⟨hmode, hnrd⟩ := execAll_keeps_built ht hm fun i hi =>
    (hl i hi).elim fun _ hn => (Bool.or_eq_false_iff.mp (Instr.reinitialises_of_read? hn r s.capBits)).1
  refine ⟨t, statWord (t.reader r), ht, exec_rdStat_built hmode (hnrd ▸ hr), ?_⟩
  rw [extractLsb'_statWord_code]
  exact hreads.of_errCode

/-! ### Reset (R120 to R122) -/

/-- Settles O14: the Bitmap is empty and every Reader is at position 0, which is its end. -/
theorem firstCommandsAfterReset : Obligations.FirstCommandsAfterReset := by
  intro c index len r hr s
  have hr : r < s.nrd := (resetWith_nrd c).symm ▸ hr
  have hreader : s.reader r = Reader.fresh := resetWith_reader c r
  refine ⟨exec_bmSize_built rfl, exec_bmGet_error rfl (get_atEnd s.mem (Nat.zero_le index)), ?_, ?_,
    exec_rdSize_built rfl hr, ?_, fun i n hi => ?_⟩
  · rw [exec_rdHasunread_built rfl hr, hreader]
    rfl
  · rw [exec_rdUnread_built rfl hr, hreader]
    rfl
  · rw [exec_rdStat_built rfl hr, hreader]
    rfl
  · rw [exec_read_atEnd hi rfl hr (by rw [hreader]; rfl) (Nat.zero_le _), hreader]
    rfl

/-- Settles O12: the step is `applyReset`, which leaves an empty store, fresh Readers and no responses. -/
theorem resetEventRestoresReset : Obligations.ResetEventRestoresReset := fun _ _ hin =>
  ⟨_, step_reset hin, rfl, rfl, Memory.word_nil, List.length_replicate, reader_of_rd_fresh rfl, rfl⟩

end Machine

end Sys2Proof
end

section
/-! The proofs about the encoder against the decoder: each undoes the other, and a row's word carries its operands
(R45 to R47, R50). -/

namespace Sys2Proof

/-! ### Decode of encode (R45, R47) -/

/-- The family `EncodedFields`, for every instruction. -/
theorem encodedFields (i : Instr) : Laws.EncodedFields.Statement i :=
  match i with
  | .bmNew => Laws.EncodedFields.bmNew
  | .bmPushb byte => Laws.EncodedFields.bmPushb byte
  | .bmPushw word => Laws.EncodedFields.bmPushw word
  | .bmCommit => Laws.EncodedFields.bmCommit
  | .bmZfill nbits => Laws.EncodedFields.bmZfill nbits
  | .bmGet index len => Laws.EncodedFields.bmGet index len
  | .bmSize => Laws.EncodedFields.bmSize
  | .rdInit rid => Laws.EncodedFields.rdInit rid
  | .rdBits rid n => Laws.EncodedFields.rdBits rid n
  | .rdBool rid => Laws.EncodedFields.rdBool rid
  | .rdByte rid => Laws.EncodedFields.rdByte rid
  | .rdSize rid => Laws.EncodedFields.rdSize rid
  | .rdUnread rid => Laws.EncodedFields.rdUnread rid
  | .rdHasunread rid => Laws.EncodedFields.rdHasunread rid
  | .rdStat rid => Laws.EncodedFields.rdStat rid

/-- A natural operand that fits comes back from the 64-bit argument. -/
theorem toNat_ofNat_of_argFits {x : Nat} (h : argFits x = true) : (BitVec.ofNat 64 x).toNat = x :=
  Machine.toNat_ofNat_of_lt (of_decide_eq_true h)

theorem extractLsb'_setWidth_byte (byte : Byte) : (byte.setWidth 64).extractLsb' 0 8 = byte := by
  apply BitVec.eq_of_getLsbD_eq
  intro p hp
  simp [hp, show p < 64 by omega]

/-- The operands assembled from an encoded command are the instruction's own. -/
theorem assemble_encode {i : Instr} (h : i.wellFormed = true) : assemble i.opcode (encode i) = i := by
  obtain ⟨_, _, hrid, hlen, _, _⟩ := encodedFields i h
  cases i with
  | bmNew | bmPushw | bmCommit | bmSize => rfl
  | bmPushb byte => exact congrArg Instr.bmPushb (extractLsb'_setWidth_byte byte)
  | bmZfill nbits => exact congrArg Instr.bmZfill (toNat_ofNat_of_argFits h)
  | bmGet index len =>
    have hindex : argFits index = true := (Bool.and_eq_true_iff.mp h).1
    exact congrArg₂ Instr.bmGet (toNat_ofNat_of_argFits hindex) hlen
  | rdBits rid n => exact congrArg₂ Instr.rdBits hrid hlen
  | rdInit rid => exact congrArg Instr.rdInit hrid
  | rdBool rid => exact congrArg Instr.rdBool hrid
  | rdByte rid => exact congrArg Instr.rdByte hrid
  | rdSize rid => exact congrArg Instr.rdSize hrid
  | rdUnread rid => exact congrArg Instr.rdUnread hrid
  | rdHasunread rid => exact congrArg Instr.rdHasunread hrid
  | rdStat rid => exact congrArg Instr.rdStat hrid

/-- Settles O1: an encoded command is a legal word of its opcode, and its operands assemble to the instruction. -/
theorem decodeOfEncode : Obligations.DecodeOfEncode := by
  intro i h
  obtain ⟨hop, hzero, _, _, hrid, hlen⟩ := encodedFields i h
  rw [decode_of_fields hop hzero hrid hlen, assemble_encode h]

/-! ### Encode of decode (R45, R47) -/

/-- Assembled operands fit: each comes from a field of its width. -/
theorem wellFormed_assemble (o : Opcode) (c : Command) : (assemble o c).wellFormed = true := by
  have hrid : (ridField c.cmd).toNat < 16 := (ridField c.cmd).isLt
  have hlen : (lenField c.cmd).toNat < 256 := (lenField c.cmd).isLt
  have harg : c.arg.toNat < 18446744073709551616 := c.arg.isLt
  cases o <;> simp [assemble, Instr.wellFormed, ridFits, lenFits, argFits, hrid, hlen, harg]

/-- What is decoded is well-formed. -/
theorem wellFormed_of_decode {c : Command} {i : Instr} (h : decode c = .ok i) : i.wellFormed = true := by
  obtain ⟨o, _, _, _, _, rfl⟩ := decode_ok h
  exact wellFormed_assemble o c

theorem reader?_assemble (o : Opcode) (c : Command) :
    (assemble o c).reader? = if o.format.usesRid then some (ridField c.cmd).toNat else none := by
  cases o <;> rfl

theorem lenOperand_assemble (o : Opcode) (c : Command) :
    (assemble o c).lenOperand = if o.format.usesLen then (lenField c.cmd).toNat else 0 := by
  cases o <;> rfl

/-- The fields of a legal word are those its instruction is encoded with, so encoding gives the word back. -/
theorem encode_assemble_cmd {o : Opcode} {c : Command} (ho : opField c.cmd = o.code) (hz : zeroField c.cmd = 0)
    (hr : o.format.usesRid = true ∨ ridField c.cmd = 0) (hl : o.format.usesLen = true ∨ lenField c.cmd = 0) :
    (encode (assemble o c)).cmd = c.cmd := by
  have hrid : BitVec.ofNat 4 ((assemble o c).reader?.getD 0) = ridField c.cmd := by
    rw [reader?_assemble]
    split
    · exact BitVec.ofNat_toNat _ _
    · next hunused => exact (hr.resolve_left hunused).symm
  have hlen : BitVec.ofNat 8 (assemble o c).lenOperand = lenField c.cmd := by
    rw [lenOperand_assemble]
    split
    · exact BitVec.ofNat_toNat _ _
    · next hunused => exact (hl.resolve_left hunused).symm
  rw [encode, hrid, hlen, opcode_assemble, ← ho, ← hz, packCmd_fields]

/-- An argument that the format uses as a whole is encoded as it was. -/
theorem encode_assemble_arg {o : Opcode} (c : Command) (hu : o.format.usesArg = true) (hb : o ≠ .bmPushb) :
    (encode (assemble o c)).arg = c.arg := by
  cases o with
  | bmPushb => exact absurd rfl hb
  | bmPushw => rfl
  | bmZfill | bmGet => exact BitVec.ofNat_toNat _ _
  | _ => cases hu

/-- Settles O2: the decoded instruction is assembled from the fields of a legal word. -/
theorem encodeOfDecode : Obligations.EncodeOfDecode := by
  intro c i h
  obtain ⟨o, hop, hzero, hrid, hlen, rfl⟩ := decode_ok h
  rw [opcode_assemble]
  refine ⟨wellFormed_assemble o c, encode_assemble_cmd hop hzero hrid hlen, encode_assemble_arg c, ?_⟩
  rintro rfl
  exact extractLsb'_setWidth_byte _

/-! ### The words of the rows (R45 to R47, R50) -/

/-- The fields `rid` and `len` put into a word by shifting and ORing. -/
theorem or_rid_or_len (op : BitVec 8) (rid : BitVec 4) (len : BitVec 8) :
    packCmd op 0 0 0 ||| rid.setWidth 32 <<< 20 ||| len.setWidth 32 = packCmd op rid 0 len := by
  apply BitVec.eq_of_getLsbD_eq
  intro p hp
  simp only [packCmd, BitVec.getLsbD_or, BitVec.getLsbD_append, BitVec.getLsbD_shiftLeft, BitVec.getLsbD_setWidth,
    hp, decide_true, Bool.true_and]
  by_cases h1 : p < 8
  · simp [h1, show p < 20 by omega]
  · rw [len.getLsbD_of_ge p (by omega)]
    by_cases h2 : p - 8 < 12
    · simp [h1, h2, show p < 20 by omega]
    · by_cases h3 : p - 8 - 12 < 4
      · simp [h1, h2, show ¬p < 20 by omega, show p - 20 < 32 by omega, show p - 8 - 12 = p - 20 by omega,
          show p - 20 < 4 by omega]
      · simp [h1, h2, h3, rid.getLsbD_of_ge (p - 20) (by omega)]

theorem or_rid (op : BitVec 8) (rid : BitVec 4) :
    packCmd op 0 0 0 ||| rid.setWidth 32 <<< 20 = packCmd op rid 0 0 := by
  simpa using or_rid_or_len op rid 0

theorem or_len (op : BitVec 8) (len : BitVec 8) : packCmd op 0 0 0 ||| len.setWidth 32 = packCmd op 0 0 len := by
  simpa using or_rid_or_len op 0 len

section
variable {o : Opcode} (arg : Word)

/-- A packed word with 0 in the fields its format does not use. -/
theorem decode_packCmd {rid : BitVec 4} {len : BitVec 8} (hr : o.format.usesRid = true ∨ rid = 0)
    (hl : o.format.usesLen = true ∨ len = 0) :
    decode ⟨packCmd o.code rid 0 len, arg⟩ = .ok (assemble o ⟨packCmd o.code rid 0 len, arg⟩) := by
  apply decode_of_fields
  · rw [opField_packCmd]
  · rw [zeroField_packCmd]
  · rwa [ridField_packCmd]
  · rwa [lenField_packCmd]

/-- Formats N and A: the word is the opcode alone. -/
theorem decode_opcodeWord : decode ⟨packCmd o.code 0 0 0, arg⟩ = .ok (assemble o ⟨packCmd o.code 0 0 0, arg⟩) :=
  decode_packCmd arg (.inr rfl) (.inr rfl)

/-- Format R, for the command `k` that takes the field as its operand. -/
theorem decode_ridWord {k : Nat → Instr} (hr : o.format.usesRid = true)
    (hk : ∀ c, assemble o c = k (ridField c.cmd).toNat) (rid : BitVec 4) :
    decode ⟨packCmd o.code 0 0 0 ||| rid.setWidth 32 <<< 20, arg⟩ = .ok (k rid.toNat) := by
  rw [or_rid, decode_packCmd arg (.inl hr) (.inr rfl), hk, ridField_packCmd]

/-- Format G, for the command `k` that takes the argument and the field as its operands. -/
theorem decode_lenWord {k : Nat → Nat → Instr} (hl : o.format.usesLen = true)
    (hk : ∀ c, assemble o c = k c.arg.toNat (lenField c.cmd).toNat) (len : BitVec 8) :
    decode ⟨packCmd o.code 0 0 0 ||| len.setWidth 32, arg⟩ = .ok (k arg.toNat len.toNat) := by
  rw [or_len, decode_packCmd arg (.inr rfl) (.inl hl), hk, lenField_packCmd]

/-- Format RL, for the command `k` that takes the two fields as its operands. -/
theorem decode_ridLenWord {k : Nat → Nat → Instr} (hr : o.format.usesRid = true) (hl : o.format.usesLen = true)
    (hk : ∀ c, assemble o c = k (ridField c.cmd).toNat (lenField c.cmd).toNat) (rid : BitVec 4) (len : BitVec 8) :
    decode ⟨packCmd o.code 0 0 0 ||| rid.setWidth 32 <<< 20 ||| len.setWidth 32, arg⟩ =
      .ok (k rid.toNat len.toNat) := by
  rw [or_rid_or_len, decode_packCmd arg (.inl hr) (.inl hl), hk, ridField_packCmd, lenField_packCmd]

end

/-- Settles O4: the literal of each row is the word of its opcode alone, and its format says which fields join it. -/
theorem encodingsCarryOperands : Obligations.EncodingsCarryOperands := fun arg r n =>
  ⟨decode_opcodeWord (o := .bmNew) arg, decode_opcodeWord (o := .bmPushb) arg, decode_opcodeWord (o := .bmPushw) arg,
    decode_opcodeWord (o := .bmCommit) arg, decode_opcodeWord (o := .bmZfill) arg,
    decode_lenWord (o := .bmGet) arg rfl (fun _ => rfl) n, decode_opcodeWord (o := .bmSize) arg,
    decode_ridWord (o := .rdInit) arg rfl (fun _ => rfl) r,
    decode_ridLenWord (o := .rdBits) arg rfl rfl (fun _ => rfl) r n,
    decode_ridWord (o := .rdBool) arg rfl (fun _ => rfl) r, decode_ridWord (o := .rdByte) arg rfl (fun _ => rfl) r,
    decode_ridWord (o := .rdSize) arg rfl (fun _ => rfl) r, decode_ridWord (o := .rdUnread) arg rfl (fun _ => rfl) r,
    decode_ridWord (o := .rdHasunread) arg rfl (fun _ => rfl) r,
    decode_ridWord (o := .rdStat) arg rfl (fun _ => rfl) r⟩

/-- Settles O6: the decoder is run on the ten words. -/
theorem specWordsDecode : Obligations.SpecWordsDecode := by
  unfold Obligations.SpecWordsDecode
  decide

end Sys2Proof
end

section
/-! The proofs about the step and the port: one response to every command, whatever is still undelivered and whatever
the host does next, and the events that are no commands (R38, R48, R55, R108, R130). -/

namespace Sys2Proof

theorem decode_of_decodeTableWord {nbits w : Nat} {i : Instr} (h : decodeTableWord nbits w = some i) :
    decode (commandOfBits nbits w) = .ok i := by
  unfold decodeTableWord at h
  cases hd : decode (commandOfBits nbits w) with
  | ok j => simpa [hd] using h
  | error e => simp [hd] at h

namespace Machine

/-- Settles O7: a command that decodes is run once taken, and an offered one is the oldest event. -/
theorem stepRunsDecoded : Obligations.StepRunsDecoded :=
  ⟨fun _ _ _ _ hin hd => step_legal hin hd, fun _ _ _ _ hw => step_legal rfl (decode_of_decodeTableWord hw)⟩

/-- Settles O11: the three events of `step` that run no command, at the port. -/
theorem idleAndDelivery : Obligations.IdleAndDelivery := by
  refine ⟨fun s => step_idle, fun s x rest xs hin hx => ?_, fun s rest hin hnone => ?_, fun s t rest hin ht => ?_⟩
  · rw [step_takeResponse hin, deliver, hx, List.tail_cons]
  · rw [step_takeResponse hin, deliver, hnone, List.tail_nil]
  · cases (step_reset hin).symm.trans ht
    rfl

/-- Settles O17: a reset and every effect keep the two parameters, and the other events do not touch them. -/
theorem parametersNeverChange : Obligations.ParametersNeverChange := by
  intro s t h
  rcases step_cases h with ⟨_, rfl⟩ | ⟨e, rest, _, ⟨_, rfl⟩ | ⟨_, rfl⟩ | ⟨_, _, _, _, rfl⟩ | ⟨c, i, _, _, heff⟩⟩
  · exact ⟨rfl, rfl⟩
  · exact ⟨rfl, List.length_replicate⟩
  · exact ⟨rfl, rfl⟩
  · exact ⟨rfl, rfl⟩
  · obtain ⟨_, _, _, hcapw, hnrd, _⟩ := heff.response
    exact ⟨hcapw, hnrd⟩

/-! ### One response to every command (R48, R130) -/

/-- Settles O9: an illegal word is answered by the decoder, a legal one by its effect. -/
theorem everyCommandGetsOneResponse : Obligations.EveryCommandGetsOneResponse := by
  intro s c rest hin
  cases hd : decode c with
  | error e => exact ⟨_, _, step_illegal hin hd, rfl, rfl, fun _ => rfl⟩
  | ok i =>
    obtain ⟨t, ht, heff⟩ := exec_effect i { s with inbox := rest }
    obtain ⟨x, hx, hinbox, _, _, hdata⟩ := heff.response
    exact ⟨t, x, (step_legal hin hd).trans ht, hinbox, hx, hdata⟩

/-! ### The port is not looked at (R130) -/

/-- The state with other events to come and other undelivered responses. -/
def State.withPort (s : State) (ib : List HostEvent) (rs : List Response) : State :=
  { s with inbox := ib, rsps := rs }

/-- A command gives the same response in `s` and in `s` with another port, and leaves states `u` that differ in the port
alone; the port itself it leaves as it was, but for the response. -/
def PortBlind (i : Instr) (s : State) (ib : List HostEvent) (rs : List Response) : Prop :=
  ∃ st d u, u.inbox = s.inbox ∧ u.rsps = s.rsps ∧ exec i s = .next (respond st d u) ∧
    exec i (s.withPort ib rs) = .next (respond st d (u.withPort ib rs))

section port
variable {i : Instr} (s : State) (ib : List HostEvent) (rs : List Response)

/-- A command on a context: the two states differ in nothing it can see. -/
theorem portBlind_of_reader {r : Nat} (hi : i.reader? = some r) : PortBlind i s ib rs := by
  have same : SameContext r s (s.withPort ib rs) := ⟨rfl, rfl, rfl, rfl, rfl⟩
  obtain ⟨st, d, y, hs, hu⟩ := same.answeredAlike hi
  exact ⟨st, d, setReader r y s, rfl, rfl, hs, hu⟩

theorem portBlind_bmPushb (byte : Byte) (hm : s.mode = .loading) : PortBlind (.bmPushb byte) s ib rs := by
  by_cases hroom : s.size + 8 ≤ s.capBits
  · exact ⟨_, _, appendByte byte s, rfl, rfl, exec_bmPushb_fits hm hroom,
      exec_bmPushb_fits (s := s.withPort ib rs) hm hroom⟩
  · have hfull := Nat.lt_of_not_le hroom
    exact ⟨_, _, s, rfl, rfl, exec_bmPushb_full hm hfull, exec_bmPushb_full (s := s.withPort ib rs) hm hfull⟩

theorem portBlind_bmPushw (word : Word) (hm : s.mode = .loading) : PortBlind (.bmPushw word) s ib rs := by
  by_cases h64 : s.size % 64 = 0
  · by_cases hroom : s.size + 64 ≤ s.capBits
    · exact ⟨_, _, appendWord word s, rfl, rfl, exec_bmPushw_fits hm h64 hroom,
        exec_bmPushw_fits (s := s.withPort ib rs) hm h64 hroom⟩
    · have hfull := Nat.lt_of_not_le hroom
      exact ⟨_, _, s, rfl, rfl, exec_bmPushw_full hm h64 hfull,
        exec_bmPushw_full (s := s.withPort ib rs) hm h64 hfull⟩
  · exact ⟨_, _, s, rfl, rfl, exec_bmPushw_misaligned hm h64,
      exec_bmPushw_misaligned (s := s.withPort ib rs) hm h64⟩

theorem portBlind_bmZfill (nbits : Nat) : PortBlind (.bmZfill nbits) s ib rs := by
  by_cases hfits : nbits ≤ s.capBits
  · exact ⟨_, _, newBitmap .built nbits s, rfl, rfl, exec_bmZfill_fits hfits,
      exec_bmZfill_fits (s := s.withPort ib rs) hfits⟩
  · have hover := Nat.lt_of_not_le hfits
    exact ⟨_, _, s, rfl, rfl, exec_bmZfill_full hover, exec_bmZfill_full (s := s.withPort ib rs) hover⟩

theorem portBlind_bmGet (index len : Nat) (hm : s.mode = .built) : PortBlind (.bmGet index len) s ib rs := by
  cases hg : s.get index len with
  | ok b => exact ⟨_, _, s, rfl, rfl, exec_bmGet_ok hm hg, exec_bmGet_ok (s := s.withPort ib rs) hm hg⟩
  | error e => exact ⟨_, _, s, rfl, rfl, exec_bmGet_error hm hg, exec_bmGet_error (s := s.withPort ib rs) hm hg⟩

/-- A command on no context, in a mode it is accepted in. -/
theorem portBlind_of_accepted (hi : i.reader? = none) (ha : i.acceptedIn s.mode = true) : PortBlind i s ib rs := by
  cases i with
  | bmNew => exact ⟨_, _, newBitmap .loading 0 s, rfl, rfl, rfl, rfl⟩
  | bmPushb byte => exact portBlind_bmPushb s ib rs byte (eq_of_beq ha)
  | bmPushw word => exact portBlind_bmPushw s ib rs word (eq_of_beq ha)
  | bmCommit =>
    exact ⟨_, _, { s with mode := .built }, rfl, rfl, exec_bmCommit_loading (eq_of_beq ha),
      exec_bmCommit_loading (s := s.withPort ib rs) (eq_of_beq ha)⟩
  | bmZfill nbits => exact portBlind_bmZfill s ib rs nbits
  | bmGet index len => exact portBlind_bmGet s ib rs index len (eq_of_beq ha)
  | bmSize =>
    exact ⟨_, _, s, rfl, rfl, exec_bmSize_built (eq_of_beq ha),
      exec_bmSize_built (s := s.withPort ib rs) (eq_of_beq ha)⟩
  | _ => cases hi

theorem portBlind (i : Instr) : PortBlind i s ib rs := by
  cases hi : i.reader? with
  | some r => exact portBlind_of_reader s ib rs hi
  | none =>
    cases ha : i.acceptedIn s.mode with
    | true => exact portBlind_of_accepted s ib rs hi ha
    | false =>
      exact ⟨_, _, s, rfl, rfl, exec_badMode_of_noReader hi ha,
        exec_badMode_of_noReader (s := s.withPort ib rs) hi ha⟩

end port

/-- Settles O10: the response and the operation are the same at both ports. -/
theorem responseDependsOnStateAlone : Obligations.ResponseDependsOnStateAlone := by
  intro i s ib rs
  obtain ⟨st, d, u, hinbox, hrsps, hs, hother⟩ := portBlind s ib rs i
  exact ⟨respond st d u, ⟨st, d⟩, hs, by rw [respond_rsps, hrsps], hinbox, hother⟩

end Machine

end Sys2Proof
end

section
/-! The proofs about the invariant: it holds of every cleared state, each operation on the block keeps it, and so does
every step (R15, R18, R19). -/

namespace Sys2Proof

/-- The length operand of a well-formed read fits the field `len` (R45, R47). -/
theorem Instr.length_lt_of_wellFormed {i : Instr} {r n : Nat} (h : i.wellFormed = true)
    (hi : i.read? = some (r, n)) : n < 256 := by
  cases i <;> simp only [Instr.read?, Option.some.injEq, Prod.mk.injEq, reduceCtorEq] at hi
  all_goals obtain ⟨_, rfl⟩ := hi
  case rdBits => exact of_decide_eq_true (Bool.and_eq_true_iff.mp h).2
  case rdBool => decide
  case rdByte => decide

namespace Machine

/-- The invariant does not speak of the port. -/
theorem BlockInv.of_eq {s t : State} (h : BlockInv s) (hmode : t.mode = s.mode) (hsize : t.size = s.size)
    (hmem : t.mem = s.mem) (hrd : t.rd = s.rd) (hcapw : t.capw = s.capw) : BlockInv t := by
  obtain ⟨mode, size, mem, rd, capw, _, _⟩ := t
  cases hmode; cases hsize; cases hmem; cases hrd; cases hcapw
  exact ⟨h.config, h.memWf, h.sizeLe, h.padding, h.loadingBytes, h.posLe, h.loadingFresh, h.latchLen⟩

theorem BlockInv.respond {s : State} (h : BlockInv s) (st : Status) (d : Word) : BlockInv (respond st d s) :=
  h.of_eq rfl rfl rfl rfl rfl

/-! ### Cleared states (R22, R61, R65, R120) -/

/-- A state with an empty store and fresh Readers. -/
theorem blockInv_of_cleared {t : State} (hconfig : t.config.valid) (hmem : t.mem = []) {n : Nat}
    (hrd : t.rd = List.replicate n Reader.fresh) (hsize : t.size ≤ t.capBits)
    (hload : t.mode = .loading → t.size % 8 = 0) : BlockInv t where
  config := hconfig
  memWf := by rw [hmem]; rfl
  sizeLe := hsize
  padding i _ := by rw [hmem, Memory.bit_nil]
  loadingBytes := hload
  posLe r := by rw [reader_of_rd_fresh hrd]; exact Nat.zero_le _
  loadingFresh _ := reader_of_rd_fresh hrd
  latchLen r e he := by rw [reader_of_rd_fresh hrd] at he; cases he

theorem config_eq_of_params {s t : State} (hcapw : t.capw = s.capw) (hnrd : t.nrd = s.nrd) : t.config = s.config := by
  rw [State.config, State.config, hcapw, hnrd]

theorem blockInv_resetWith {c : Config} (hc : c.valid) : BlockInv (State.resetWith c) := by
  have hconfig : (State.resetWith c).config = c := by rw [State.config, resetWith_nrd]; rfl
  exact blockInv_of_cleared (by rwa [hconfig]) rfl rfl (Nat.zero_le _) nofun

/-- Settles O15: a reset state is cleared, in `BUILT`, with the parameters of its configuration. -/
theorem invariantAtReset : Obligations.InvariantAtReset :=
  ⟨fun _ => blockInv_resetWith, blockInv_resetWith (by decide)⟩

theorem BlockInv.applyReset {s : State} (h : BlockInv s) : BlockInv (applyReset s) :=
  (blockInv_resetWith h.config).of_eq rfl rfl rfl rfl rfl

/-- A new Bitmap is a cleared state of the same machine. -/
theorem BlockInv.newBitmap {s : State} (h : BlockInv s) {m : Mode} {n : Nat} (hn : n ≤ s.capBits)
    (hload : m = .loading → n % 8 = 0) : BlockInv (newBitmap m n s) := by
  have hconfig : (Machine.newBitmap m n s).config = s.config := config_eq_of_params rfl List.length_replicate
  exact blockInv_of_cleared (hconfig ▸ h.config) rfl rfl hn hload

/-! ### Construction (R62 to R64) -/

/-- An append in `LOADING`: more bits in a canonical store, the Readers fresh as they were. -/
theorem BlockInv.of_append {s t : State} (h : BlockInv s) (hm : s.mode = .loading) (hrd : t.rd = s.rd)
    (hcapw : t.capw = s.capw) (hwf : Memory.wf t.mem = true) (hsize : t.size ≤ s.capBits)
    (hpad : ∀ i, t.size ≤ i → t.mem.bit i = false) (h8 : t.size % 8 = 0) : BlockInv t := by
  have hfresh : ∀ r, t.reader r = Reader.fresh := fun r => (reader_of_rd_eq hrd r).trans (h.loadingFresh hm r)
  exact
    { config := config_eq_of_params hcapw (congrArg List.length hrd) ▸ h.config
      memWf := hwf
      sizeLe := by rw [State.capBits, hcapw]; exact hsize
      padding := hpad
      loadingBytes := fun _ => h8
      posLe := fun r => by rw [hfresh]; exact Nat.zero_le _
      loadingFresh := fun _ => hfresh
      latchLen := fun r e he => by rw [hfresh] at he; cases he }

theorem BlockInv.appendByte {s : State} (h : BlockInv s) (hm : s.mode = .loading) (hroom : s.size + 8 ≤ s.capBits)
    (byte : Byte) : BlockInv (appendByte byte s) := by
  have h8 : s.size % 8 = 0 := h.loadingBytes hm
  refine h.of_append hm rfl rfl (wf_appendByte byte h.memWf) hroom (fun i hi => ?_)
    (by rw [appendByte_size]; omega)
  rw [appendByte_size] at hi
  rw [bit_appendByte byte s h8, if_neg (by omega), h.padding i (by omega)]

theorem BlockInv.appendWord {s : State} (h : BlockInv s) (hm : s.mode = .loading) (h64 : s.size % 64 = 0)
    (hroom : s.size + 64 ≤ s.capBits) (word : Word) : BlockInv (appendWord word s) := by
  refine h.of_append hm rfl rfl (wf_appendWord word h.memWf) hroom (fun i hi => ?_)
    (by rw [appendWord_size]; omega)
  rw [appendWord_size] at hi
  rw [bit_appendWord word s h64, if_neg (by omega), h.padding i (by omega)]

theorem BlockInv.built {s : State} (h : BlockInv s) : BlockInv { s with mode := .built } :=
  ⟨h.config, h.memWf, h.sizeLe, h.padding, nofun, h.posLe, nofun, h.latchLen⟩

/-! ### Readers (R81, R82, R104) -/

/-- A context written in `BUILT`, with a position within the Bitmap and a latched length that fits. -/
theorem BlockInv.setReader {s : State} (h : BlockInv s) (hm : s.mode = .built) (r : Nat) {y : Reader}
    (hpos : y.pos ≤ s.size) (hlen : ∀ e, y.err = some e → e.n < 256) : BlockInv (setReader r y s) where
  config := (config_eq_of_params (s := s) (t := Machine.setReader r y s) rfl List.length_set).symm ▸ h.config
  memWf := h.memWf
  sizeLe := h.sizeLe
  padding := h.padding
  loadingBytes := h.loadingBytes
  posLe q := by
    rw [setReader_reader]
    split
    · exact hpos
    · exact h.posLe q
  loadingFresh hload := by cases hm.symm.trans hload
  latchLen q := by
    rw [setReader_reader]
    split
    · exact hlen
    · exact h.latchLen q

/-! ### Every step -/

/-- Each effect of a well-formed instruction keeps the invariant. -/
theorem Effect.keeps_blockInv {i : Instr} {s t : State} (heff : Effect i s t) (h : BlockInv s)
    (hi : i.wellFormed = true) : BlockInv t := by
  cases heff with
  | started m n hstart =>
    refine (h.newBitmap ?_ ?_).respond _ _ <;> rcases hstart with ⟨_, rfl, rfl⟩ | ⟨_, rfl, hn⟩
    · exact Nat.zero_le _
    · exact hn
    · exact fun _ => rfl
    · exact nofun
  | pushedByte b _ hm hroom => exact (h.appendByte hm hroom b).respond _ _
  | pushedWord w _ hm h64 hroom => exact (h.appendWord hm h64 hroom w).respond _ _
  | committed => exact h.built.respond _ _
  | inited r _ _ hm => exact (h.setReader hm r (Nat.zero_le _) fun _ he => by cases he).respond _ _
  | advanced r n b _ _ hm _ hget =>
    have hbound : (s.reader r).pos + n ≤ s.size := (get_ok_bound hget).2.1
    exact (h.setReader hm r hbound fun _ he => by cases he).respond _ _
  | latched r n e hread _ hm =>
    have hlen : n < 256 := Instr.length_lt_of_wellFormed hi hread
    exact (h.setReader hm r (y := ⟨(s.reader r).pos, some ⟨e, n⟩⟩) (h.posLe r) fun _ he => by
      cases he
      exact hlen).respond _ _
  | _ => exact h.respond _ _

/-- Settles O16: the events that run no command keep or restore the block, and a decoded command is well-formed. -/
theorem invariantKeptByEveryStep : Obligations.InvariantKeptByEveryStep := by
  intro s t h hstep
  rcases step_cases hstep with ⟨_, rfl⟩ | ⟨e, rest, _, hcases⟩
  · exact h
  · have htaken : BlockInv { s with inbox := rest } := h.of_eq rfl rfl rfl rfl rfl
    rcases hcases with ⟨_, rfl⟩ | ⟨_, rfl⟩ | ⟨_, _, _, _, rfl⟩ | ⟨c, i, _, hdecode, heff⟩
    · exact htaken.applyReset
    · exact htaken.of_eq rfl rfl rfl rfl rfl
    · exact htaken.respond _ _
    · exact heff.keeps_blockInv htaken (wellFormed_of_decode hdecode)

end Machine

end Sys2Proof
end

section
/-! The proofs about a whole construction: `BM_FROM_BYTES` and `BM_FROM_WORDS` from any state (R54, R66, R77). -/

namespace Sys2Proof.Machine

/-- `BM_NEW`, pushes that leave the mode `LOADING`, `BM_COMMIT`: what the pushes leave of an empty Bitmap, in
`BUILT`. -/
theorem execAll_construction {pushes : List Instr} {s t : State}
    (h : execAll pushes (respond .ok 0 (newBitmap .loading 0 s)) = .next t) (hm : t.mode = .loading) :
    execAll (.bmNew :: pushes ++ [.bmCommit]) s = .next (respond .ok 0 { t with mode := .built }) := by
  have hnew : exec .bmNew s = .next (respond .ok 0 (newBitmap .loading 0 s)) := rfl
  rw [List.cons_append, execAll_cons hnew, execAll_append _ h, execAll_cons (exec_bmCommit_loading hm), execAll_nil]

/-- The responses of a construction: one to `BM_NEW`, one to each push, one to `BM_COMMIT`. -/
theorem construction_responses (rs : List Response) (x : Response) (n : Nat) :
    rs ++ [x] ++ List.replicate n x ++ [x] = rs ++ List.replicate (n + 2) x := by
  rw [List.append_assoc, ← List.replicate_succ', List.append_assoc, List.singleton_append, ← List.replicate_succ]

/-! ### From bytes (R66 items 1 and 4, R77 item 8) -/

/-- The eight bits of a byte are `MemRead` from its first bit. -/
theorem Memory.memRead_byte (m : Memory) (j : Nat) : m.memRead (8 * j) 8 = (m.read j).toNat := by
  apply Nat.eq_of_testBit_eq
  intro p
  rw [Memory.testBit_memRead, BitVec.testBit_toNat]
  by_cases hp : p < 8
  · rw [decide_eq_true hp, Bool.true_and, Memory.getLsbD_read_eq_bit m j p hp]
  · rw [decide_eq_false hp, Bool.false_and, BitVec.getLsbD_of_ge _ _ (Nat.not_lt.mp hp)]

/-- `get` of a byte that lies within the Bitmap. -/
theorem get_byte (m : Memory) {size j : Nat} (h : 8 * j + 8 ≤ size) :
    get size m (8 * j) 8 = .ok ((m.read j).setWidth 64) := by
  rw [get_fits m (by omega) (by decide) h, Memory.memRead_byte, BitVec.ofNat_toNat]

/-- Settles O26: the run of pushes starts from an empty Bitmap, so its bytes are the store's. -/
theorem constructionFromBytes : Obligations.ConstructionFromBytes := by
  intro bytes s hfits
  obtain ⟨m, hrun, _, hread⟩ := execAll_bmPushb bytes (s := respond .ok 0 (newBitmap .loading 0 s)) rfl rfl
    (show 0 + 8 * bytes.length ≤ 64 * s.capw by omega) rfl fun a _ => Memory.read_nil a
  have hbyte : ∀ a, m.read a = bytes.getD a 0 := fun a => by simpa using hread a
  refine ⟨_, execAll_construction hrun rfl, rfl, Nat.zero_add _, construction_responses _ _ _,
    reader_of_rd_fresh rfl, fun j u _ hu => ?_, fun i hi => ?_, fun j hj => ?_⟩
  · show m.bit (8 * j + u) = _
    rw [← hbyte, (storeByteLayout m).1 j u hu]
  · show m.bit i = false
    rw [Memory.bit_eq_read, hbyte, List.getD_eq_default _ _ (by omega)]
    exact BitVec.getLsbD_zero
  · rw [← hbyte]
    exact get_byte m (show 8 * j + 8 ≤ 0 + 8 * bytes.length by omega)

/-! ### From words (R66 items 2 and 4) -/

/-- A run of `BM_PUSHW` that fits, at a word boundary of a store that is 0 from there on: every push is accepted, and
the words are as before below `size`, and the pushed ones, then 0, from there on. -/
theorem execAll_bmPushw (words : List Word) {s : State} (hm : s.mode = .loading) (h64 : s.size % 64 = 0)
    (hroom : s.size + 64 * words.length ≤ s.capBits) (hzero : ∀ w, s.size / 64 ≤ w → s.mem.word w = 0) :
    ∃ m : Memory,
      execAll (words.map .bmPushw) s = .next { s with
        mem := m, size := s.size + 64 * words.length,
        rsps := s.rsps ++ List.replicate words.length ⟨.ok, 0⟩ } ∧
      ∀ w, m.word w = if w < s.size / 64 then s.mem.word w else words.getD (w - s.size / 64) 0 := by
  induction words generalizing s with
  | nil =>
    refine ⟨s.mem, by simp, fun w => ?_⟩
    split
    · rfl
    · next hw => exact hzero w (Nat.not_lt.mp hw)
  | cons v words ih =>
    rw [List.length_cons] at hroom
    have hpush : exec (.bmPushw v) s = .next (respond .ok 0 (appendWord v s)) :=
      exec_bmPushw_fits hm h64 (by omega)
    have hword : ∀ w, (appendWord v s).mem.word w = if w = s.size / 64 then v else s.mem.word w :=
      Memory.word_writeWord _ _ _
    have hsize : s.size + 64 + 64 * words.length = s.size + 64 * (words.length + 1) := by omega
    have hdiv : (s.size + 64) / 64 = s.size / 64 + 1 := by omega
    have hzero' : ∀ w, (s.size + 64) / 64 ≤ w → (appendWord v s).mem.word w = 0 := fun w hw => by
      rw [hword, if_neg (by omega), hzero w (by omega)]
    obtain ⟨m, hrun, hwords⟩ := ih (s := respond .ok 0 (appendWord v s)) hm
      (show (s.size + 64) % 64 = 0 by omega) (show s.size + 64 + 64 * words.length ≤ s.capBits by omega) hzero'
    refine ⟨m, ?_, fun w => ?_⟩
    · rw [List.map_cons, execAll_cons hpush, hrun]
      simp [List.replicate_succ, hsize]
    · simp only [hwords, respond_size, respond_mem, appendWord_size, hdiv, hword]
      rcases Nat.lt_trichotomy w (s.size / 64) with hlt | rfl | hgt
      · rw [if_pos (by omega), if_neg (by omega), if_pos hlt]
      · simp
      · rw [if_neg (by omega), if_neg (by omega),
          show w - s.size / 64 = w - (s.size / 64 + 1) + 1 by omega, List.getD_cons_succ]

/-- Settles O27: the run of pushes starts from an empty Bitmap, so its words are the store's. -/
theorem constructionFromWords : Obligations.ConstructionFromWords := by
  intro words s hfits
  obtain ⟨m, hrun, hword⟩ := execAll_bmPushw words (s := respond .ok 0 (newBitmap .loading 0 s)) rfl rfl
    (show 0 + 64 * words.length ≤ 64 * s.capw by omega) fun w _ => Memory.word_nil w
  exact ⟨_, execAll_construction hrun rfl, rfl, Nat.zero_add _, construction_responses _ _ _, reader_of_rd_fresh rfl,
    fun w => by simpa using hword w⟩

end Sys2Proof.Machine
end

section
/-! The proofs about `get` as a function of the Bitmap: when it succeeds, which error it gives, and that a range is the
concatenation of its two parts (R77). -/

namespace Sys2Proof.Machine

/-- `get` succeeds exactly on the ranges of at most 64 bits that start and end within the Bitmap. -/
theorem get_ok_iff (size : Nat) (m : Memory) (index length : Nat) :
    (∃ b, get size m index length = .ok b) ↔ index < size ∧ length ≤ 64 ∧ index + length ≤ size := by
  constructor
  · rintro ⟨b, h⟩
    obtain ⟨hin, hfits, h64⟩ := get_ok_bound h
    exact ⟨hin, h64, hfits⟩
  · rintro ⟨hin, h64, hfits⟩
    exact ⟨_, get_fits m hin h64 hfits⟩

/-- A success is `MemRead`. -/
theorem get_ok_eq {size : Nat} {m : Memory} {index length : Nat} {b : Word} (h : get size m index length = .ok b) :
    b = BitVec.ofNat 64 (m.memRead index length) := by
  obtain ⟨hin, hfits, h64⟩ := get_ok_bound h
  exact Except.ok.inj (h.symm.trans (get_fits m hin h64 hfits))

theorem get_ok_lt {size : Nat} {m : Memory} {index length : Nat} {b : Word} (h : get size m index length = .ok b) :
    b.toNat < 2 ^ length := by
  rw [get_ok_eq h, BitVec.toNat_ofNat]
  exact (Nat.mod_le _ _).trans_lt (Memory.memRead_lt m index length)

/-- The ranges each error is given for (R71). -/
def ErrKind.Range (size index length : Nat) : ErrKind → Prop
  | .indexOutOfRange => size ≤ index
  | .lengthOutOfRange => index < size ∧ 64 < length
  | .lengthExceedsRange => index < size ∧ 1 ≤ length ∧ length ≤ 64 ∧ size < index + length

theorem get_error_iff (size : Nat) (m : Memory) (index length : Nat) (e : ErrKind) :
    get size m index length = .error e ↔ e.Range size index length := by
  constructor
  · intro h
    rcases get_cases size m index length with
      ⟨hout, hg⟩ | ⟨_, _, hg⟩ | ⟨hin, hlong, hg⟩ | ⟨hin, h1, h64, hpast, hg⟩ | ⟨_, _, _, hg⟩
    · cases hg.symm.trans h
      exact hout
    · cases hg.symm.trans h
    · cases hg.symm.trans h
      exact ⟨hin, hlong⟩
    · cases hg.symm.trans h
      exact ⟨hin, h1, h64, hpast⟩
    · cases hg.symm.trans h
  · intro h
    cases e with
    | indexOutOfRange => exact get_atEnd m h
    | lengthOutOfRange => exact get_tooLong m h.1 h.2
    | lengthExceedsRange =>
      obtain ⟨hin, _, h64, hpast⟩ := h
      exact get_pastEnd m hin h64 hpast

theorem get_one {size index : Nat} (m : Memory) (h : index < size) :
    get size m index 1 = .ok (if m.bit index then 1 else 0) := by
  rw [get_fits m h (by decide) h, Memory.memRead_one]
  cases m.bit index <;> rfl

/-- Settles O32: one lemma for the successes, one for the errors. -/
theorem getSuccessAndErrors : Obligations.GetSuccessAndErrors := by
  intro size m index length
  refine ⟨fun b => get_ok_lt, ?_, get_error_iff size m index length .indexOutOfRange,
    get_error_iff size m index length .lengthOutOfRange, get_error_iff size m index length .lengthExceedsRange,
    get_one m⟩
  rw [get_ok_iff]
  omega

/-- A longer `MemRead` is two shorter ones, the front one shifted above the other. -/
theorem Memory.memRead_add (m : Memory) (i a b : Nat) :
    m.memRead i (a + b) = m.memRead i a <<< b ||| m.memRead (i + a) b := by
  have hsum : m.memRead i (a + b) = m.memRead i a * 2 ^ b + m.memRead (i + a) b := by
    induction b with
    | zero => simp
    | succ b ih =>
      rw [← Nat.add_assoc, Memory.memRead_succ, ih, Memory.memRead_succ, Nat.add_assoc i a b]
      ring
  rw [hsum, ← Nat.shiftLeft_eq, Nat.shiftLeft_add_eq_or_of_lt (Memory.memRead_lt m (i + a) b)]

/-- Settles O33: a success gives the bounds of both parts, and the three values are `MemRead`. -/
theorem getConcatenates : Obligations.GetConcatenates := by
  intro size m i a b x ha hb h64 hx
  obtain ⟨hin, hfits, _⟩ := get_ok_bound hx
  refine ⟨_, _, get_fits m hin (by omega) (by omega), get_fits m (by omega) (by omega) (by omega), ?_⟩
  rw [get_ok_eq hx, Memory.memRead_add]
  apply BitVec.eq_of_getLsbD_eq
  intro p hp
  simp only [BitVec.getLsbD_or, BitVec.getLsbD_shiftLeft, BitVec.getLsbD_ofNat, Nat.testBit_or, Nat.testBit_shiftLeft,
    hp, show p - b < 64 by omega, decide_true, Bool.true_and, ge_iff_le, ← decide_not, Nat.not_lt]

end Sys2Proof.Machine
end

section
/-! The proofs about what a command leaves alone: the readers it does not name, the store outside construction, and
everything on a query (R16, R17, R35, R36, R90). -/

namespace Sys2Proof

theorem Instr.read?_of_query {i : Instr}
    (h : i.opcode ∈ [.bmGet, .bmSize, .rdSize, .rdUnread, .rdHasunread, .rdStat]) : i.read? = none := by
  cases i <;> simp [Instr.opcode, Instr.read?] at h ⊢

namespace Machine

/-- Settles O47: the frame of an effect on a context it does not name. -/
theorem otherReadersUntouched : Obligations.OtherReadersUntouched :=
  fun _ _ _ _ hexec hs hi => (effect_of_exec hexec).reader_of_unnamed hs hi

/-- Settles O49: of the four things a command can do to the Bitmap, two write the store. -/
theorem storeWritesOnlyInConstruction : Obligations.StoreWritesOnlyInConstruction := by
  intro i s t hexec hmem
  rcases (effect_of_exec hexec).bitmap_cases with ⟨same, _⟩ | starts | ⟨hm, hp, hgrew, _⟩ | ⟨_, _, same, _⟩
  · exact absurd same hmem
  · exact .inl starts
  · exact .inr ⟨hm, hp, hgrew⟩
  · exact absurd same hmem

/-- Settles O50: a query raises a status or answers, and every other effect belongs to another command. -/
theorem queriesChangeNothing : Obligations.QueriesChangeNothing := by
  intro i s t hexec hquery
  have hread := Instr.read?_of_query hquery
  cases effect_of_exec hexec with
  | started m n hi => rcases hi with ⟨rfl, _⟩ | ⟨rfl, _⟩ <;> simp [Instr.opcode] at hquery
  | pushedByte b hi => simp [hi, Instr.opcode] at hquery
  | pushedWord w hi => simp [hi, Instr.opcode] at hquery
  | committed hi => simp [hi, Instr.opcode] at hquery
  | inited r hi => simp [hi, Instr.opcode] at hquery
  | advanced r n b hi => cases hread.symm.trans hi
  | latched r n e hi => cases hread.symm.trans hi
  | _ => exact ⟨_, rfl⟩

/-- Settles O46: a context that is neither left alone nor new was read, and of the three rows of a read only the
success moves its position. -/
theorem positionOnlyForward : Obligations.PositionOnlyForward := by
  intro i r s t hexec
  rcases (effect_of_exec hexec).reader_cases r with same | renewed | ⟨n, hread, hactive⟩
  · exact .inl (by rw [same])
  · rcases reader_of_reinitialises hexec renewed with fresh | ⟨_, same⟩
    · exact .inr (.inr ⟨renewed, fresh⟩)
    · exact .inl (by rw [same])
  · rcases exec_read_cases hread s with ⟨st, _, hrefused⟩ | ⟨hr, hm, _⟩
    · cases hrefused.symm.trans hexec
      exact .inl rfl
    · cases hg : s.get (s.reader r).pos n with
      | ok b =>
        cases (exec_read_ok hread hm hr hactive hg).symm.trans hexec
        have hmoved := setReader_reader_self ⟨(s.reader r).pos + n, none⟩ hr
        exact .inr (.inl ⟨n, b, hread, by rw [respond_reader, hmoved], rfl, hactive, by rw [respond_reader, hmoved]⟩)
      | error e =>
        cases (exec_read_error hread hm hr hactive hg).symm.trans hexec
        exact .inl (by rw [raise_reader, setReader_reader_self _ hr])

/-! ### Reads in sequence (R90 items 1 and 2) -/

/-- A read that fits, as the rest of a sequence sees it: the Bitmap as it was, the context at the next position. -/
theorem exec_read_field {i : Instr} {r n : Nat} {s : State} (hi : i.read? = some (r, n)) (hm : s.mode = .built)
    (hr : r < s.nrd) (he : (s.reader r).err = none) (h1 : 1 ≤ n) (h64 : n ≤ 64)
    (hfits : (s.reader r).pos + n ≤ s.size) :
    ∃ u, exec i s = .next u ∧ u.mode = .built ∧ u.nrd = s.nrd ∧ u.mem = s.mem ∧ u.size = s.size ∧
      u.reader r = ⟨(s.reader r).pos + n, none⟩ ∧
      u.rsps.drop s.rsps.length = [⟨.ok, BitVec.ofNat 64 (s.mem.memRead (s.reader r).pos n)⟩] :=
  ⟨_, exec_read_fits hi hm hr he (by omega) h64 hfits, hm, List.length_set, rfl, rfl, setReader_reader_self _ hr,
    List.drop_left⟩

/-- Settles O51: by induction on the sequence: a read that fits answers its field and leaves the rest to start, and to
fit, at the next position. -/
theorem sequentialReadsAreFields : Obligations.SequentialReadsAreFields := by
  intro l r s hm hr he hl hfits
  induction l generalizing s with
  | nil =>
    have hreader : s.reader r = ⟨(s.reader r).pos + bitsAsked [], none⟩ := by rw [← he]; rfl
    exact ⟨s, rfl, rfl, hreader⟩
  | cons i l ih =>
    obtain ⟨⟨n, hi, h1, h64⟩, hl⟩ := List.forall_mem_cons.mp hl
    have hasked : bitsAsked (i :: l) = n + bitsAsked l := by rw [bitsAsked, hi, Option.getD_some]
    rw [hasked, ← Nat.add_assoc] at hfits
    obtain ⟨u, hu, hmode, hnrd, hmem, hsize, hreader, hanswer⟩ :=
      exec_read_field hi hm hr he h1 h64 (Nat.le_of_add_right_le hfits)
    obtain ⟨t, ht, htrans, hend⟩ := ih u hmode (hnrd ▸ hr) (by rw [hreader]) hl (by rwa [hreader, hsize])
    rw [hmem, hreader] at htrans
    rw [hreader, Nat.add_assoc, ← hasked] at hend
    refine ⟨t, (execAll_cons hu).trans ht, ?_, hend⟩
    rw [transcript_cons hu, hanswer, htrans, fieldsFrom_cons, hi, Option.getD_some]

end Machine

end Sys2Proof
end
